-- ==== Sys2Proof/Word.lean ====
section
/-! DEFINITION. The word types of the block (00_scope.md R7, R8, R12).
All values are unsigned; there is no sign extension anywhere in this ISA (R8). -/

namespace Sys2Proof

/-- An 8-bit register, memory byte, timer or immediate value (R7, REG_WIDTH). -/
abbrev Byte := BitVec 8

/-- A 16-bit word: the instruction word, the program counter, the index register, a stack slot (R7). -/
abbrev Word := BitVec 16

/-- A 12-bit address literal, `nnn` (R12). -/
abbrev Addr := BitVec 12

/-- A 4-bit field, `c` or `n` (R12, R71). -/
abbrev Nibble := BitVec 4

/-- A register index, 0..15, naming V0..VF (R9, R78). -/
abbrev Reg := Fin 16

/-- A key index, 0..15, one per hexadecimal key (10_state.md R38). -/
abbrev Key := Fin 16

/-- VF, slot 15, the flag register: an ordinary index, no second storage (10_state.md R21). -/
abbrev regVF : Reg := 15

end Sys2Proof
end

