-- ==== Sys2Proof/Syntax.lean ====
section
/-! DEFINITION. The instruction set: one constructor for each of the 34 rows of spec/opcode_table.json, in the table's
order (30_encoding.md R74). Operand types carry their ranges (R78): a register index names one of V0..VF, `kk` is a byte,
`nnn` a 12-bit address, `n` a 4-bit row count. -/

namespace Sys2Proof

/-- One constructor per row of the opcode table; the docstring gives the row's pattern and the rule of its meaning. -/
inductive Instr where
  /-- 00E0 CLS, R170 -/
  | cls
  /-- 00EE RET, R100 -/
  | ret
  /-- 1nnn JP addr, R101 -/
  | jp (nnn : Addr)
  /-- 2nnn CALL addr, R102 -/
  | call (nnn : Addr)
  /-- 3xkk SE Vx, byte, R103 -/
  | seByte (x : Reg) (kk : Byte)
  /-- 4xkk SNE Vx, byte, R104 -/
  | sneByte (x : Reg) (kk : Byte)
  /-- 5xy0 SE Vx, Vy, R105 -/
  | seReg (x y : Reg)
  /-- 6xkk LD Vx, byte, R130 -/
  | ldByte (x : Reg) (kk : Byte)
  /-- 7xkk ADD Vx, byte, R131 -/
  | addByte (x : Reg) (kk : Byte)
  /-- 8xy0 LD Vx, Vy, R132 -/
  | ldReg (x y : Reg)
  /-- 8xy1 OR Vx, Vy, R133 -/
  | orReg (x y : Reg)
  /-- 8xy2 AND Vx, Vy, R134 -/
  | andReg (x y : Reg)
  /-- 8xy3 XOR Vx, Vy, R135 -/
  | xorReg (x y : Reg)
  /-- 8xy4 ADD Vx, Vy, R136 -/
  | addReg (x y : Reg)
  /-- 8xy5 SUB Vx, Vy, R137 -/
  | subReg (x y : Reg)
  /-- 8xy6 SHR Vx {, Vy}, R138; `y` is kept because SHIFT_SOURCE = Vy reads it (R77) -/
  | shr (x y : Reg)
  /-- 8xy7 SUBN Vx, Vy, R139 -/
  | subnReg (x y : Reg)
  /-- 8xyE SHL Vx {, Vy}, R140; `y` as in SHR -/
  | shl (x y : Reg)
  /-- 9xy0 SNE Vx, Vy, R106 -/
  | sneReg (x y : Reg)
  /-- Annn LD I, addr, R190 -/
  | ldI (nnn : Addr)
  /-- Bnnn JP V0, addr, R107 -/
  | jpV0 (nnn : Addr)
  /-- Cxkk RND Vx, byte, R145 -/
  | rnd (x : Reg) (kk : Byte)
  /-- Dxyn DRW Vx, Vy, nib, R171 -/
  | drw (x y : Reg) (n : Nibble)
  /-- Ex9E SKP Vx, R213 -/
  | skp (x : Reg)
  /-- ExA1 SKNP Vx, R214 -/
  | sknp (x : Reg)
  /-- Fx07 LD Vx, DT, R210 -/
  | ldVxDT (x : Reg)
  /-- Fx0A LD Vx, K, R215 -/
  | ldVxK (x : Reg)
  /-- Fx15 LD DT, Vx, R211 -/
  | ldDT (x : Reg)
  /-- Fx18 LD ST, Vx, R212 -/
  | ldST (x : Reg)
  /-- Fx1E ADD I, Vx, R191 -/
  | addI (x : Reg)
  /-- Fx29 LD F, Vx, R175 -/
  | ldF (x : Reg)
  /-- Fx33 LD B, Vx, R194 -/
  | ldB (x : Reg)
  /-- Fx55 LD [I], Vx, R195 -/
  | ldStore (x : Reg)
  /-- Fx65 LD Vx, [I], R196 -/
  | ldLoad (x : Reg)
  deriving DecidableEq, Repr

end Sys2Proof
end

