-- ==== Sys2Proof/WellFormed.lean ====
section
/-! DEFINITION. When operand values are well-formed (30_encoding.md R82): x, y and n in 0..15, kk in 0..255 and nnn in
0..0xFFF. The checks are on operand values as numbers, as a writer of programs gives them; the encoding functions of
Decode.lean refuse a value a check refuses. The operands of `Instr` carry their ranges in their types, so every `Instr`
passes (R78: every index names an existing register). -/

namespace Sys2Proof

/-- A 4-bit field value: x, y, n, a category or a sub-selector nibble. -/
def nibbleOk (v : Nat) : Bool := decide (v ≤ 15)

/-- An 8-bit field value: kk, or format X's sub-selector. -/
def byteOk (v : Nat) : Bool := decide (v ≤ 255)

/-- A 12-bit address value: nnn. -/
def addrOk (v : Nat) : Bool := decide (v ≤ 0xFFF)

/-- Operand values as numbers; a field an instruction does not have is 0. -/
structure Operands where
  x : Nat := 0
  y : Nat := 0
  n : Nat := 0
  kk : Nat := 0
  nnn : Nat := 0
  deriving DecidableEq, Repr

/-- Every operand value is in its range (R82). -/
def Operands.wellFormed (o : Operands) : Bool :=
  nibbleOk o.x && nibbleOk o.y && nibbleOk o.n && byteOk o.kk && addrOk o.nnn

/-- The operand values of an instruction. -/
def Instr.operands : Instr → Operands
  | .cls => {}
  | .ret => {}
  | .jp nnn => { nnn := nnn.toNat }
  | .call nnn => { nnn := nnn.toNat }
  | .seByte x kk => { x := x.val, kk := kk.toNat }
  | .sneByte x kk => { x := x.val, kk := kk.toNat }
  | .seReg x y => { x := x.val, y := y.val }
  | .ldByte x kk => { x := x.val, kk := kk.toNat }
  | .addByte x kk => { x := x.val, kk := kk.toNat }
  | .ldReg x y => { x := x.val, y := y.val }
  | .orReg x y => { x := x.val, y := y.val }
  | .andReg x y => { x := x.val, y := y.val }
  | .xorReg x y => { x := x.val, y := y.val }
  | .addReg x y => { x := x.val, y := y.val }
  | .subReg x y => { x := x.val, y := y.val }
  | .shr x y => { x := x.val, y := y.val }
  | .subnReg x y => { x := x.val, y := y.val }
  | .shl x y => { x := x.val, y := y.val }
  | .sneReg x y => { x := x.val, y := y.val }
  | .ldI nnn => { nnn := nnn.toNat }
  | .jpV0 nnn => { nnn := nnn.toNat }
  | .rnd x kk => { x := x.val, kk := kk.toNat }
  | .drw x y n => { x := x.val, y := y.val, n := n.toNat }
  | .skp x => { x := x.val }
  | .sknp x => { x := x.val }
  | .ldVxDT x => { x := x.val }
  | .ldVxK x => { x := x.val }
  | .ldDT x => { x := x.val }
  | .ldST x => { x := x.val }
  | .addI x => { x := x.val }
  | .ldF x => { x := x.val }
  | .ldB x => { x := x.val }
  | .ldStore x => { x := x.val }
  | .ldLoad x => { x := x.val }

/-- An instruction is well-formed when its operand values are (R82). -/
def Instr.wellFormed (i : Instr) : Bool := i.operands.wellFormed

end Sys2Proof
end

