-- ==== Sys2Proof/Decode.lean ====
section
/-! DEFINITION. The decoder (30_encoding.md R70–R77) and, after it, the encoder (R82), both written from the spec's
encoding tables. The opcode values and field positions are the spec's conventional ones (R71, R74; log 1). -/

namespace Sys2Proof

/-! ### Bytes of a word (00_scope.md R8, 20_memory.md R52) -/

/-- `a ++ b` of R8: the byte `a` high, the byte `b` low. -/
def concatBytes (a b : Byte) : Word := a.setWidth 16 <<< 8 ||| b.setWidth 16

/-- The high byte of a word, the one that lies at the lower address (20_memory.md R52). -/
def highByte (w : Word) : Byte := w.extractLsb' 8 8

/-- The low byte of a word. -/
def lowByte (w : Word) : Byte := w.extractLsb' 0 8

/-! ### Fields of the instruction word (R71) -/

/-- c = w[15:12] -/
def category (w : Word) : Nibble := w.extractLsb' 12 4

/-- w[11:8] as a nibble -/
def nibbleX (w : Word) : Nibble := w.extractLsb' 8 4

/-- w[7:4] as a nibble -/
def nibbleY (w : Word) : Nibble := w.extractLsb' 4 4

/-- x = w[11:8], a register index -/
def fieldX (w : Word) : Reg := (nibbleX w).toFin

/-- y = w[7:4], a register index -/
def fieldY (w : Word) : Reg := (nibbleY w).toFin

/-- n = w[3:0] -/
def fieldN (w : Word) : Nibble := w.extractLsb' 0 4

/-- kk = w[7:0] -/
def fieldKK (w : Word) : Byte := w.extractLsb' 0 8

/-- nnn = w[11:0] -/
def fieldNNN (w : Word) : Addr := w.extractLsb' 0 12

/-! ### The decoder (R75) -/

/-- Why bytes name no instruction. -/
inductive DecodeError where
  /-- fewer than the two bytes of an instruction word (R70); the fetch always gives two, so only a caller with a
  byte list of its own meets it -/
  | truncated
  /-- the word matches no row of the opcode map (R76); executing it raises UnknownInstruction -/
  | unknownInstruction (w : Word)
  deriving DecidableEq, Repr

/-- Category 0: the whole word is the sub-selector (format Z). -/
def decodeZ (w : Word) : Except DecodeError Instr :=
  if w = 0x00E0 then .ok .cls
  else if w = 0x00EE then .ok .ret
  else .error (.unknownInstruction w)

/-- Category 5: the low nibble must be 0 (R75, R76). -/
def decodeSeReg (w : Word) : Except DecodeError Instr :=
  if fieldN w = 0 then .ok (.seReg (fieldX w) (fieldY w)) else .error (.unknownInstruction w)

/-- Category 9: the low nibble must be 0 (R75, R76). -/
def decodeSneReg (w : Word) : Except DecodeError Instr :=
  if fieldN w = 0 then .ok (.sneReg (fieldX w) (fieldY w)) else .error (.unknownInstruction w)

/-- Category 8: the low nibble is the sub-selector (format XY). -/
def decodeXY (w : Word) : Except DecodeError Instr :=
  let x := fieldX w
  let y := fieldY w
  match (fieldN w).toNat with
  | 0x0 => .ok (.ldReg x y)
  | 0x1 => .ok (.orReg x y)
  | 0x2 => .ok (.andReg x y)
  | 0x3 => .ok (.xorReg x y)
  | 0x4 => .ok (.addReg x y)
  | 0x5 => .ok (.subReg x y)
  | 0x6 => .ok (.shr x y)
  | 0x7 => .ok (.subnReg x y)
  | 0xE => .ok (.shl x y)
  | _ => .error (.unknownInstruction w)

/-- Category E: the low byte is the sub-selector (format X). -/
def decodeKeys (w : Word) : Except DecodeError Instr :=
  if fieldKK w = 0x9E then .ok (.skp (fieldX w))
  else if fieldKK w = 0xA1 then .ok (.sknp (fieldX w))
  else .error (.unknownInstruction w)

/-- Category F: the low byte is the sub-selector (format X). -/
def decodeX (w : Word) : Except DecodeError Instr :=
  let x := fieldX w
  if fieldKK w = 0x07 then .ok (.ldVxDT x)
  else if fieldKK w = 0x0A then .ok (.ldVxK x)
  else if fieldKK w = 0x15 then .ok (.ldDT x)
  else if fieldKK w = 0x18 then .ok (.ldST x)
  else if fieldKK w = 0x1E then .ok (.addI x)
  else if fieldKK w = 0x29 then .ok (.ldF x)
  else if fieldKK w = 0x33 then .ok (.ldB x)
  else if fieldKK w = 0x55 then .ok (.ldStore x)
  else if fieldKK w = 0x65 then .ok (.ldLoad x)
  else .error (.unknownInstruction w)

/-- `decode` of R75: the dispatcher's selection on the category nibble. Total: each of the 65536 words gives an
instruction or is rejected by name (R72, R76). -/
def decode (w : Word) : Except DecodeError Instr :=
  match (category w).toNat with
  | 0x0 => decodeZ w
  | 0x1 => .ok (.jp (fieldNNN w))
  | 0x2 => .ok (.call (fieldNNN w))
  | 0x3 => .ok (.seByte (fieldX w) (fieldKK w))
  | 0x4 => .ok (.sneByte (fieldX w) (fieldKK w))
  | 0x5 => decodeSeReg w
  | 0x6 => .ok (.ldByte (fieldX w) (fieldKK w))
  | 0x7 => .ok (.addByte (fieldX w) (fieldKK w))
  | 0x8 => decodeXY w
  | 0x9 => decodeSneReg w
  | 0xA => .ok (.ldI (fieldNNN w))
  | 0xB => .ok (.jpV0 (fieldNNN w))
  | 0xC => .ok (.rnd (fieldX w) (fieldKK w))
  | 0xD => .ok (.drw (fieldX w) (fieldY w) (fieldN w))
  | 0xE => decodeKeys w
  | _ => decodeX w

/-- The decoder over any list of bytes: the first two, high byte first (R70), and the rest of the list. -/
def decodeBytes : List Byte → Except DecodeError (Instr × List Byte)
  | hi :: lo :: rest => (decode (concatBytes hi lo)).map fun i => (i, rest)
  | _ => .error .truncated

/-- The bits of an opcode-table row as one instruction word: bit 0 is the word's least significant bit, and every bit
at or above `nbits` is 0. Every instruction of this ISA is one 16-bit word (R70). -/
def tableWord (nbits w : Nat) : Word := BitVec.ofNat 16 (w % 2 ^ nbits)

/-- The host's question on a table row: what the decoder reads from that word's two bytes, laid out big-endian. -/
def decodeTableWord (nbits w : Nat) : Option Instr :=
  match decodeBytes [highByte (tableWord nbits w), lowByte (tableWord nbits w)] with
  | .ok (i, _) => some i
  | .error _ => none

/-! ### The encoder (R82) -/

/-- `c<<12 | nnn` -/
def wordA (c : Nibble) (nnn : Addr) : Word := c.setWidth 16 <<< 12 ||| nnn.setWidth 16

/-- `c<<12 | x<<8 | kk`; format X is the same layout with a fixed low byte -/
def wordXK (c : Nibble) (x : Reg) (kk : Byte) : Word :=
  c.setWidth 16 <<< 12 ||| (BitVec.ofFin (w := 4) x).setWidth 16 <<< 8 ||| kk.setWidth 16

/-- `c<<12 | x<<8 | y<<4 | s` -/
def wordXY (c : Nibble) (x y : Reg) (s : Nibble) : Word :=
  c.setWidth 16 <<< 12 ||| (BitVec.ofFin (w := 4) x).setWidth 16 <<< 8 |||
    (BitVec.ofFin (w := 4) y).setWidth 16 <<< 4 ||| s.setWidth 16

/-- The word of an instruction (R74, R82). -/
def encode : Instr → Word
  | .cls => 0x00E0
  | .ret => 0x00EE
  | .jp nnn => wordA 0x1 nnn
  | .call nnn => wordA 0x2 nnn
  | .seByte x kk => wordXK 0x3 x kk
  | .sneByte x kk => wordXK 0x4 x kk
  | .seReg x y => wordXY 0x5 x y 0x0
  | .ldByte x kk => wordXK 0x6 x kk
  | .addByte x kk => wordXK 0x7 x kk
  | .ldReg x y => wordXY 0x8 x y 0x0
  | .orReg x y => wordXY 0x8 x y 0x1
  | .andReg x y => wordXY 0x8 x y 0x2
  | .xorReg x y => wordXY 0x8 x y 0x3
  | .addReg x y => wordXY 0x8 x y 0x4
  | .subReg x y => wordXY 0x8 x y 0x5
  | .shr x y => wordXY 0x8 x y 0x6
  | .subnReg x y => wordXY 0x8 x y 0x7
  | .shl x y => wordXY 0x8 x y 0xE
  | .sneReg x y => wordXY 0x9 x y 0x0
  | .ldI nnn => wordA 0xA nnn
  | .jpV0 nnn => wordA 0xB nnn
  | .rnd x kk => wordXK 0xC x kk
  | .drw x y n => wordXY 0xD x y n
  | .skp x => wordXK 0xE x 0x9E
  | .sknp x => wordXK 0xE x 0xA1
  | .ldVxDT x => wordXK 0xF x 0x07
  | .ldVxK x => wordXK 0xF x 0x0A
  | .ldDT x => wordXK 0xF x 0x15
  | .ldST x => wordXK 0xF x 0x18
  | .addI x => wordXK 0xF x 0x1E
  | .ldF x => wordXK 0xF x 0x29
  | .ldB x => wordXK 0xF x 0x33
  | .ldStore x => wordXK 0xF x 0x55
  | .ldLoad x => wordXK 0xF x 0x65

/-- The bytes of an instruction as memory holds them, high byte first (R70). -/
def encodeBytes (i : Instr) : List Byte := [highByte (encode i), lowByte (encode i)]

/-- `enc_A(c, nnn)` of R82 on numbers: a value out of range is refused, never truncated. -/
def encA (c nnn : Nat) : Option Word :=
  if nibbleOk c && addrOk nnn then some (BitVec.ofNat 16 (c <<< 12 ||| nnn)) else none

/-- `enc_XK(c, x, kk)` of R82 on numbers. -/
def encXK (c x kk : Nat) : Option Word :=
  if nibbleOk c && nibbleOk x && byteOk kk then some (BitVec.ofNat 16 (c <<< 12 ||| x <<< 8 ||| kk)) else none

/-- `enc_XY(c, x, y, s)` of R82 on numbers. -/
def encXY (c x y s : Nat) : Option Word :=
  if nibbleOk c && nibbleOk x && nibbleOk y && nibbleOk s then
    some (BitVec.ofNat 16 (c <<< 12 ||| x <<< 8 ||| y <<< 4 ||| s))
  else none

/-- `enc_X(c, x, s)` of R82 on numbers. -/
def encX (c x s : Nat) : Option Word :=
  if nibbleOk c && nibbleOk x && byteOk s then some (BitVec.ofNat 16 (c <<< 12 ||| x <<< 8 ||| s)) else none

/-! ### The opcode table's rows (spec/opcode_table.json) -/

/-- A row's "match" and "mask": a word `w` is of the row when `w &&& mask = pattern`. -/
structure OpcodeRow where
  pattern : Word
  mask : Word
  deriving DecidableEq, Repr

/-- The table's row of each instruction. -/
def Instr.row : Instr → OpcodeRow
  | .cls => ⟨0x00E0, 0xFFFF⟩
  | .ret => ⟨0x00EE, 0xFFFF⟩
  | .jp _ => ⟨0x1000, 0xF000⟩
  | .call _ => ⟨0x2000, 0xF000⟩
  | .seByte _ _ => ⟨0x3000, 0xF000⟩
  | .sneByte _ _ => ⟨0x4000, 0xF000⟩
  | .seReg _ _ => ⟨0x5000, 0xF00F⟩
  | .ldByte _ _ => ⟨0x6000, 0xF000⟩
  | .addByte _ _ => ⟨0x7000, 0xF000⟩
  | .ldReg _ _ => ⟨0x8000, 0xF00F⟩
  | .orReg _ _ => ⟨0x8001, 0xF00F⟩
  | .andReg _ _ => ⟨0x8002, 0xF00F⟩
  | .xorReg _ _ => ⟨0x8003, 0xF00F⟩
  | .addReg _ _ => ⟨0x8004, 0xF00F⟩
  | .subReg _ _ => ⟨0x8005, 0xF00F⟩
  | .shr _ _ => ⟨0x8006, 0xF00F⟩
  | .subnReg _ _ => ⟨0x8007, 0xF00F⟩
  | .shl _ _ => ⟨0x800E, 0xF00F⟩
  | .sneReg _ _ => ⟨0x9000, 0xF00F⟩
  | .ldI _ => ⟨0xA000, 0xF000⟩
  | .jpV0 _ => ⟨0xB000, 0xF000⟩
  | .rnd _ _ => ⟨0xC000, 0xF000⟩
  | .drw _ _ _ => ⟨0xD000, 0xF000⟩
  | .skp _ => ⟨0xE09E, 0xF0FF⟩
  | .sknp _ => ⟨0xE0A1, 0xF0FF⟩
  | .ldVxDT _ => ⟨0xF007, 0xF0FF⟩
  | .ldVxK _ => ⟨0xF00A, 0xF0FF⟩
  | .ldDT _ => ⟨0xF015, 0xF0FF⟩
  | .ldST _ => ⟨0xF018, 0xF0FF⟩
  | .addI _ => ⟨0xF01E, 0xF0FF⟩
  | .ldF _ => ⟨0xF029, 0xF0FF⟩
  | .ldB _ => ⟨0xF033, 0xF0FF⟩
  | .ldStore _ => ⟨0xF055, 0xF0FF⟩
  | .ldLoad _ => ⟨0xF065, 0xF0FF⟩

/-- The 34 rows of the table, in its order. -/
def opcodeTable : List OpcodeRow :=
  [Instr.row .cls, Instr.row .ret, Instr.row (.jp 0), Instr.row (.call 0), Instr.row (.seByte 0 0),
   Instr.row (.sneByte 0 0), Instr.row (.seReg 0 0), Instr.row (.ldByte 0 0), Instr.row (.addByte 0 0)] ++
  [Instr.row (.ldReg 0 0), Instr.row (.orReg 0 0), Instr.row (.andReg 0 0), Instr.row (.xorReg 0 0),
   Instr.row (.addReg 0 0), Instr.row (.subReg 0 0), Instr.row (.shr 0 0), Instr.row (.subnReg 0 0),
   Instr.row (.shl 0 0), Instr.row (.sneReg 0 0)] ++
  [Instr.row (.ldI 0), Instr.row (.jpV0 0), Instr.row (.rnd 0 0), Instr.row (.drw 0 0 0), Instr.row (.skp 0),
   Instr.row (.sknp 0)] ++
  [Instr.row (.ldVxDT 0), Instr.row (.ldVxK 0), Instr.row (.ldDT 0), Instr.row (.ldST 0), Instr.row (.addI 0),
   Instr.row (.ldF 0), Instr.row (.ldB 0), Instr.row (.ldStore 0), Instr.row (.ldLoad 0)]

/-- The word is of the row. -/
def OpcodeRow.covers (r : OpcodeRow) (w : Word) : Bool := w &&& r.mask == r.pattern

end Sys2Proof
end

