-- ==== Sys2Proof/Config.lean ====
section
/-! DEFINITION. What is fixed for the block (00_scope.md R7), the types of the host's interactions with it
(60_exceptions.md R234, R247), and the FREE VALUES: constants with no body, of which nothing can be proved but their type.
The defaults of SHIFT_SOURCE and FX1E_CARRY_LIMIT stand in Machine/Operands.lean and Machine/Flags.lean, FONT in
Machine/Font.lean. -/

namespace Sys2Proof.Config

/-- MEM_SIZE (R7). -/
def memSize : Nat := 4096

/-- ADDR_MASK, 12 bits (R7). -/
def addrMask : Word := 0xFFF

/-- PROGRAM_BASE (R7, R251). -/
def programBase : Word := 0x200

/-- MAX_PROGRAM, 4096 − 512 bytes (R7, R251). -/
def maxProgram : Nat := 0x0E00

/-- INSN_BYTES (R7). -/
def insnBytes : Word := 2

/-- STACK_DEPTH (R7). -/
def stackDepth : Nat := 16

/-- GLYPH_BYTES (R7). -/
def glyphBytes : Word := 5

end Sys2Proof.Config

namespace Sys2Proof

/-- SHIFT_SOURCE (R7, D3): the register 8xy6 and 8xyE shift. -/
inductive ShiftSource where
  | vx
  | vy
  deriving DecidableEq, Repr

/-- A key event of R234: key-down when `down`, key-up otherwise; already mapped to a hexadecimal key (R216). -/
structure KeyEvent where
  key : Key
  down : Bool
  deriving DecidableEq, Repr, Inhabited

/-- The input record of one tick (R234, R247). -/
structure TickInput where
  /-- `in.quit` -/
  quit : Bool
  /-- `in.key_events`, in arrival order -/
  keyEvents : List KeyEvent
  /-- `in.paused` -/
  paused : Bool
  /-- `in.timer_tick` -/
  timerTick : Bool
  /-- the random byte RND may take in this tick (at most one instruction, so at most one draw); `none` leaves it to the
  free value `Config.randByte` -/
  draw : Option Byte
  deriving DecidableEq, Repr, Inhabited

/-- The tick of 95_test_vectors.md's conventions: no quit, no key events, not paused, no timer tick; the draw is free. -/
def TickInput.plain : TickInput :=
  { quit := false, keyEvents := [], paused := false, timerTick := false, draw := none }

/-- What the host can do to the block (R247, R248). -/
inductive HostEvent where
  /-- the reset event (R270) -/
  | reset
  /-- program load (R251) -/
  | load (bytes : List Byte)
  /-- one core step (R234) -/
  | tick (inp : TickInput)
  deriving DecidableEq, Repr, Inhabited

/-- FREE VALUE (log 5): the k-th random byte that no input record supplies. No law relates the draws (R145, D14). -/
opaque Config.randByte : Nat → Byte

/-- FREE VALUE (log 6): the k-th interaction the host makes when State's queue of interactions is empty. Any event, any
tick record: the model admits every pattern of keys, pauses, timer ticks, loads, resets and quits (R239, R248). -/
opaque Config.hostEvent : Nat → HostEvent

end Sys2Proof
end

