-- ==== Sys2Proof/Machine/Font.lean ====
section
/-! DEFINITION. The font glyph table (10_state.md R36) and the content of memory right after reset (70_reset_and_hazards.md
R270). The 80 bytes are the spec's default of its parameter FONT (D21; log 2). -/

namespace Sys2Proof.Machine

/-- FONT: the glyph of digit d is bytes 5*d .. 5*d+4 (R36). -/
def fontBytes : List Byte :=
  ([0xF0, 0x90, 0x90, 0x90, 0xF0,  0x20, 0x60, 0x20, 0x20, 0x70,
    0xF0, 0x10, 0xF0, 0x80, 0xF0,  0xF0, 0x10, 0xF0, 0x10, 0xF0] : List Byte) ++
  ([0x90, 0x90, 0xF0, 0x10, 0x10,  0xF0, 0x80, 0xF0, 0x10, 0xF0,
    0xF0, 0x80, 0xF0, 0x90, 0xF0,  0xF0, 0x10, 0x20, 0x40, 0x40] : List Byte) ++
  ([0xF0, 0x90, 0xF0, 0x90, 0xF0,  0xF0, 0x90, 0xF0, 0x10, 0xF0,
    0xF0, 0x90, 0xF0, 0x90, 0x90,  0xE0, 0x90, 0xE0, 0x90, 0xE0] : List Byte) ++
  ([0xF0, 0x80, 0x80, 0x80, 0xF0,  0xE0, 0x90, 0x90, 0x90, 0xE0,
    0xF0, 0x80, 0xF0, 0x80, 0xF0,  0xF0, 0x80, 0xF0, 0x80, 0x80] : List Byte)

/-- What an address that State.mem does not list reads as: the reset content, FONT at 0x000–0x04F and 0 elsewhere
(R36, R270). -/
def resetByte (a : Nat) : Byte := fontBytes.getD a 0

end Sys2Proof.Machine
end

