-- ==== Sys2Proof/Machine/State.lean ====
section
/-! DEFINITION. The state of the block (10_state.md R42), its reset value (70_reset_and_hazards.md R270), and why a step
can stop. Plain data; the register accessors and memory operations stand in Machine/Ops.lean. -/

namespace Sys2Proof.Machine

/-- The fault causes of 60_exceptions.md R230. -/
inductive FaultCause where
  | stackOverflow
  | stackUnderflow
  | unknownInstruction
  | keyIndexOutOfRange
  deriving DecidableEq, Repr

/-- The run status (R33). -/
inductive Status where
  /-- reset, no program loaded -/
  | idle
  | running
  /-- a wait for a key with destination Vx is pending -/
  | awaitingKey (x : Reg)
  /-- a fault was raised -/
  | halted (cause : FaultCause) (word : Word)
  deriving DecidableEq, Repr

/-- The result of a program load (R247, R251). -/
inductive LoadResult where
  | ok
  | romTooLarge
  | notIdle
  deriving DecidableEq, Repr

/-- The framebuffer, `fb[col][row]`: 64 columns of 32 one-bit cells (R37). -/
abbrev Framebuffer := Vector (Vector Bool 32) 64

/-- Memory: the bytes that differ from the reset content, by strictly rising address (see `Memory.wf`). -/
abbrev Memory := List Host.Cell

/-- The canonical form from address `lo` on: addresses rise strictly from `lo`, stay below 4096, and no listed byte is
what an unlisted address reads as. -/
def Memory.wfFrom : Nat → Memory → Bool
  | _, [] => true
  | lo, (a, b) :: m => decide (lo ≤ a) && decide (a < Config.memSize) && (b != resetByte a) && Memory.wfFrom (a + 1) m

/-- The canonical form of memory: equal contents are equal lists. -/
def Memory.wf (m : Memory) : Bool := Memory.wfFrom 0 m

/-- Everything the spec gives the block (R42), its outputs (R247), and four fields of the model's own. -/
structure State where
  /-- V0..VF (R20) -/
  v : Vector Byte 16
  /-- the index register I (R28) -/
  i : Word
  /-- the program counter (R23) -/
  pc : Word
  /-- the call stack's slots (R30) -/
  stack : Vector Word 16
  /-- the number of stack entries, 0..16 (R31) -/
  depth : Fin 17
  /-- the delay timer DT (R34) -/
  dt : Byte
  /-- the sound timer ST (R34) -/
  st : Byte
  /-- memory (R36) -/
  mem : Memory
  /-- the framebuffer (R37) -/
  fb : Framebuffer
  /-- the dirty flag (R35) -/
  dirty : Bool
  /-- the key latch (R38) -/
  key : Vector Bool 16
  /-- the run status (R33) -/
  status : Status
  /-- OUTPUT: the frames of the `Present` events so far, oldest first (R240; log 7) -/
  presented : List Framebuffer
  /-- OUTPUT: the result of the last load (R251; log 7) -/
  loadResult : Option LoadResult
  /-- MODEL'S OWN (log 6): the host's interactions still to come, oldest first -/
  hostEvents : List HostEvent
  /-- MODEL'S OWN (log 6): how many interactions were taken from `Config.hostEvent` -/
  hostCount : Nat
  /-- MODEL'S OWN (log 5): the random byte the current tick's record supplies -/
  draw : Option Byte
  /-- MODEL'S OWN (log 5): how many random bytes were taken from `Config.randByte` -/
  drawCount : Nat
  deriving DecidableEq, Repr

/-- Right after reset, with no interaction placed (R270; the model's own fields by logs 5, 6 and 7). -/
def State.reset : State where
  v := Vector.replicate 16 0
  i := 0
  pc := 0
  stack := Vector.replicate 16 0
  depth := 0
  dt := 0
  st := 0
  mem := []
  fb := Vector.replicate 64 (Vector.replicate 32 false)
  dirty := false
  key := Vector.replicate 16 false
  status := .idle
  presented := []
  loadResult := none
  hostEvents := []
  hostCount := 0
  draw := none
  drawCount := 0

/-- Why the machine stops. -/
inductive Fault where
  /-- The end of a run (60_exceptions.md R252): raised by `tick` when `in.quit` is true, in any status; no further
  change, the state the step was taken from is final. Safe: a stop, not a value (log 9). The block's own faults are NOT
  here: their entry is a next state with status `halted` (R231; log 8). -/
  | endOfRun
  deriving DecidableEq, Repr

/-- Why an instruction has no meaning. -/
inductive Refusal where
  /-- An instruction whose arm of `exec` has no meaning yet. No arm answers it: every instruction of the table has its
  meaning. Safe: a stop. -/
  | notModelled (mnemonic : String)
  deriving DecidableEq, Repr

end Sys2Proof.Machine
end

