-- ==== Sys2Proof/Machine/Ops.lean ====
section
/-! DEFINITION. The named operations over registers, memory, the stack, the framebuffer and the key latch; the program
counter's helpers; and fault entry. Every meaning reads and writes the state through these. -/

namespace Sys2Proof.Machine

/-- What exec and step answer. -/
abbrev Outcome := Host.Outcome State Fault Refusal

/-! ### Registers (10_state.md R20, R24, R28) -/

/-- `V[x]` (R9). -/
def readV (s : State) (x : Reg) : Byte := s.v[x]

/-- `V[x] <- b` (R9). -/
def writeV (s : State) (x : Reg) (b : Byte) : State := { s with v := s.v.set x b }

/-- `pc <- t`: every write is masked to 12 bits (R24). -/
def setPc (s : State) (t : Word) : State := { s with pc := t &&& Config.addrMask }

/-- `I <- a` (R28). -/
def setI (s : State) (a : Word) : State := { s with i := a }

/-- `DT <- b` (R34). -/
def setDT (s : State) (b : Byte) : State := { s with dt := b }

/-- `ST <- b` (R34). -/
def setST (s : State) (b : Byte) : State := { s with st := b }

/-- `status <- t` (R33). -/
def setStatus (s : State) (t : Status) : State := { s with status := t }

/-- The load result output (60_exceptions.md R247, R251). -/
def setLoadResult (s : State) (r : LoadResult) : State := { s with loadResult := some r }

/-! ### The program counter's helpers (40_control_flow.md R108) -/

/-- `advance()` -/
def advance (s : State) : State := setPc s (s.pc + Config.insnBytes)

/-- `skip(cond)` -/
def skip (cond : Bool) (s : State) : State :=
  if cond then setPc s (s.pc + Config.insnBytes + Config.insnBytes) else advance s

/-! ### Memory (00_scope.md R10, 20_memory.md R50, R55, R56) -/

/-- The byte at a listed address, or the reset content at an unlisted one. -/
def Memory.read : Memory → Nat → Byte
  | [], a => resetByte a
  | (b, u) :: m, a => if a = b then u else Memory.read m a

/-- The list without any entry at `a`. -/
def Memory.erase (m : Memory) (a : Nat) : Memory := m.filter fun c => c.1 != a

/-- A new entry before the first listed address above it. -/
def Memory.insert : Memory → Nat → Byte → Memory
  | [], a, b => [(a, b)]
  | (c, u) :: m, a, b => if a < c then (a, b) :: (c, u) :: m else (c, u) :: Memory.insert m a b

/-- Write one byte and keep the canonical form: the byte an unlisted address reads as is not listed. -/
def Memory.write (m : Memory) (a : Nat) (b : Byte) : Memory :=
  if b = resetByte a then Memory.erase m a else Memory.insert (Memory.erase m a) a b

/-- `a & 0xFFF`, the index into memory of an address (R10, R50). -/
def memIndex (a : Word) : Nat := (a &&& Config.addrMask).toNat

/-- `MemRead(a, 1)` (R10). -/
def memRead (s : State) (a : Word) : Byte := Memory.read s.mem (memIndex a)

/-- `MemWrite(a, 1, b)` (R10). -/
def memWrite (s : State) (a : Word) (b : Byte) : State := { s with mem := Memory.write s.mem (memIndex a) b }

/-- A sequence of one-byte writes at consecutive addresses, each masked on its own (R10, R55). -/
def memWriteList (s : State) (a : Word) : List Byte → State
  | [] => s
  | b :: bs => memWriteList (memWrite s a b) (a + 1) bs

/-- A sequence of one-byte reads at `a`, `a + 1`, ..., each masked on its own (R10, R55). -/
def memReadList (s : State) (a : Word) (n : Nat) : List Byte :=
  (List.range n).map fun k => memRead s (a + BitVec.ofNat 16 k)

/-- `Fetch(pc)`: two byte reads, the high byte at the lower address (R10, R52). -/
def fetch (s : State) : Word := concatBytes (memRead s s.pc) (memRead s (s.pc + 1))

/-! ### The call stack (10_state.md R31) -/

/-- Push `p`: `none` when 16 entries are held, else the slot at `depth` is written and `depth` rises by 1. -/
def push (s : State) (p : Word) : Option State :=
  if h : s.depth.val < Config.stackDepth then
    some { s with stack := s.stack.set s.depth.val p h, depth := ⟨s.depth.val + 1, Nat.succ_lt_succ h⟩ }
  else none

/-- Pop: `none` when the stack is empty, else the top entry and the state with `depth` lower by 1. The slot keeps its
content (R31; log 10). -/
def pop (s : State) : Option (Word × State) :=
  if h : s.depth.val = 0 then none
  else
    have hk : s.depth.val - 1 < 16 := by have := s.depth.isLt; omega
    some (s.stack[s.depth.val - 1], { s with depth := ⟨s.depth.val - 1, by omega⟩ })

/-! ### The framebuffer (10_state.md R37) -/

/-- `fb[col][row]` -/
def Framebuffer.cell (fb : Framebuffer) (col : Fin 64) (row : Fin 32) : Bool := fb[col][row]

/-- `fb[col][row] <- fb[col][row] ^ 1` -/
def Framebuffer.toggle (fb : Framebuffer) (col : Fin 64) (row : Fin 32) : Framebuffer :=
  fb.set col (fb[col].set row (!fb[col][row]))

/-- Every cell 0. -/
def Framebuffer.clear : Framebuffer := Vector.replicate 64 (Vector.replicate 32 false)

/-- `fb <- f; dirty <- 1`: only CLS and DRW change the framebuffer, and both mark it (R35, R37, R176). -/
def setFb (s : State) (f : Framebuffer) : State := { s with fb := f, dirty := true }

/-! ### The key latch (10_state.md R38) -/

/-- The latch index a register names: `none` when V[x] > 15 (44_timers_keys.md R213, R214). -/
def keyIndex (s : State) (x : Reg) : Option Key :=
  if h : (readV s x).toNat < 16 then some ⟨(readV s x).toNat, h⟩ else none

/-- `key[k]` -/
def keyPressed (s : State) (k : Key) : Bool := s.key[k]

/-! ### The random draw (00_scope.md R11, 41_alu.md R145) -/

/-- `draw_rand()`: the byte this tick's record supplies, else a free value; each draw uses its byte up (log 5). -/
def drawRand (s : State) : Byte × State :=
  match s.draw with
  | some r => (r, { s with draw := none })
  | none => (Config.randByte s.drawCount, { s with drawCount := s.drawCount + 1 })

/-! ### Fault entry (00_scope.md R11, 60_exceptions.md R230, R231, R233) -/

/-- `raise Fault(cause, word)`, the one shared entry. Called on the state the instruction found, so nothing it would have
written is written; pc keeps the faulting word's address; there is no handler (R231). -/
def raiseFault (cause : FaultCause) (word : Word) (s : State) : State := setStatus s (.halted cause word)

/-- The code of a cause (R230). -/
def FaultCause.code : FaultCause → Nat
  | .stackOverflow => 1
  | .stackUnderflow => 2
  | .unknownInstruction => 3
  | .keyIndexOutOfRange => 4

/-- The reset event (R270), which is the only return from a fault (R233): every state of the block to its reset value. The
record of what the block has put out, and the model's own fields, are no state of the block and stay (log 7). -/
def resetBlock (s : State) : State :=
  { State.reset with
    presented := s.presented, loadResult := s.loadResult, hostEvents := s.hostEvents, hostCount := s.hostCount,
    draw := s.draw, drawCount := s.drawCount }

end Sys2Proof.Machine
end

