-- ==== Sys2Proof/Machine/Flags.lean ====
section
/-! DEFINITION. Every flag computation the spec gives, and the one operation that writes a result and then VF
(10_state.md R22, 41_alu.md R141). Flags are computed from the operands before anything is written (R14). -/

namespace Sys2Proof.Machine

/-- FX1E_CARRY_LIMIT, default 0xFF (00_scope.md R7, D6; log 4); the alternative is 0xFFF. -/
def fx1eCarryLimit : Nat := 0xFF

/-- A flag as VF's value: 1 or 0 (R22). -/
def flagByte (f : Bool) : Byte := if f then 1 else 0

/-- 8xy4: the exact sum exceeds 255 (R136). -/
def carryOut (a b : Byte) : Bool := decide (a.toNat + b.toNat > 255)

/-- 8xy5, and 8xy7 with its operands swapped: a ≥ b before the subtraction (R137, R139). -/
def notBorrow (a b : Byte) : Bool := decide (a.toNat ≥ b.toNat)

/-- 8xy6: bit 0, the bit shifted out (R138). -/
def lostRight (a : Byte) : Bool := a.getLsbD 0

/-- 8xyE: bit 7, the bit shifted out (R140). -/
def lostLeft (a : Byte) : Bool := a.getLsbD 7

/-- Fx1E: the untruncated sum exceeds the limit (R191). -/
def indexCarry (limit : Nat) (i : Word) (b : Byte) : Bool := decide (i.toNat + b.toNat > limit)

/-- `VF <- f` -/
def writeFlag (s : State) (f : Bool) : State := writeV s regVF (flagByte f)

/-- The result to `V[x]` first, VF last, so that with x = 15 VF holds the flag (R22, R276). -/
def writeResultFlag (s : State) (x : Reg) (r : Byte) (f : Bool) : State := writeFlag (writeV s x r) f

end Sys2Proof.Machine
end

