-- ==== Sys2Proof/Machine/Operands.lean ====
section
/-! DEFINITION. Every operand form: zero-extension (30_encoding.md R78), the shift operand (R138, R140), the jump offset
(R107), the index sum (R191), the glyph address (R175), decimal digits (R194), register blocks (R195, R196) and the sprite
engine (R171). -/

namespace Sys2Proof.Machine

/-- `nnn` as a 16-bit value, zero-extended (R78). -/
def zextAddr (nnn : Addr) : Word := nnn.setWidth 16

/-- A byte as a 16-bit value, zero-extended (R78). -/
def zextByte (b : Byte) : Word := b.setWidth 16

/-- SHIFT_SOURCE, default Vx (00_scope.md R7, D3; log 3). -/
def shiftSource : ShiftSource := .vx

/-- The operand of a shift under a setting of SHIFT_SOURCE (R138, R140). -/
def shiftOperand (src : ShiftSource) (s : State) (x y : Reg) : Byte :=
  match src with
  | .vx => readV s x
  | .vy => readV s y

/-- Fx1E's new I: the sum truncated to 12 bits (R191). -/
def indexSum (i : Word) (b : Byte) : Word := (i + zextByte b) &&& Config.addrMask

/-- Fx29's address: the low nibble times 5 (R175). -/
def glyphAddress (b : Byte) : Word := zextByte (b &&& 0xF) * Config.glyphBytes

/-- The hundreds, tens and ones digits of a byte (R194). -/
def bcdDigits (b : Byte) : List Byte := [b / 100, b / 10 % 10, b % 10]

/-- V0..Vx inclusive, in index order (R195). -/
def registerBlock (s : State) (x : Reg) : List Byte :=
  (List.range (x.val + 1)).map fun k => readV s (Fin.ofNat 16 k)

/-- Load V[k], V[k+1], ... from consecutive addresses, in order (R196). -/
def loadBlock (s : State) (a : Word) (k : Nat) : Nat → State
  | 0 => s
  | n + 1 => loadBlock (writeV s (Fin.ofNat 16 k) (memRead s a)) (a + 1) (k + 1) n

/-! ### The sprite engine (42_display.md R171, R172) -/

/-- The framebuffer as a draw goes on, and `hit`. -/
structure Canvas where
  fb : Framebuffer
  hit : Bool
  deriving DecidableEq, Repr

/-- One set sprite bit: note a collision, toggle the cell. -/
def plotCell (c : Canvas) (col : Fin 64) (row : Fin 32) : Canvas :=
  { fb := c.fb.toggle col row, hit := c.hit || c.fb.cell col row }

/-- Column offset `b` of a sprite row: bit 7 - b of its byte (R172); the cell's coordinates wrap (R174). -/
def plotBit (x0 y0 : Byte) (k : Nat) (row : Byte) (c : Canvas) (b : Nat) : Canvas :=
  if row.getLsbD (7 - b) then plotCell c (Fin.ofNat 64 (x0.toNat + b)) (Fin.ofNat 32 (y0.toNat + k)) else c

/-- The eight columns of sprite row `k`. -/
def plotRow (x0 y0 : Byte) (k : Nat) (row : Byte) (c : Canvas) : Canvas :=
  (List.range 8).foldl (plotBit x0 y0 k row) c

/-- The sprite rows from row `k` on. -/
def plotRows (x0 y0 : Byte) : Nat → List Byte → Canvas → Canvas
  | _, [], c => c
  | k, row :: rows, c => plotRows x0 y0 (k + 1) rows (plotRow x0 y0 k row c)

/-- The whole draw from rows already read (R171). -/
def drawSprite (x0 y0 : Byte) (rows : List Byte) (fb : Framebuffer) : Canvas :=
  plotRows x0 y0 0 rows { fb := fb, hit := false }

end Sys2Proof.Machine
end

