-- ==== Sys2Proof/Machine/Alu.lean ====
section
/-! DEFINITION. The meanings of the register and arithmetic instructions (41_alu.md). Results are 8-bit, modulo 256 (R141). -/

namespace Sys2Proof.Machine

/-- `V[x] <- r; advance()`: the shape of every instruction here that writes no flag. -/
def writeAdvance (s : State) (x : Reg) (r : Byte) : Outcome := .next (advance (writeV s x r))

/-- `V[x] <- r; VF <- f; advance()`: the shape of every instruction here that writes a flag (R22). -/
def writeFlagAdvance (s : State) (x : Reg) (r : Byte) (f : Bool) : Outcome := .next (advance (writeResultFlag s x r f))

/-- LD Vx, byte (R130). -/
def execLdByte (x : Reg) (kk : Byte) (s : State) : Outcome := writeAdvance s x kk

/-- ADD Vx, byte (R131): no flag. -/
def execAddByte (x : Reg) (kk : Byte) (s : State) : Outcome := writeAdvance s x (readV s x + kk)

/-- LD Vx, Vy (R132). -/
def execLdReg (x y : Reg) (s : State) : Outcome := writeAdvance s x (readV s y)

/-- OR Vx, Vy (R133): no flag (R142). -/
def execOrReg (x y : Reg) (s : State) : Outcome := writeAdvance s x (readV s x ||| readV s y)

/-- AND Vx, Vy (R134): no flag (R142). -/
def execAndReg (x y : Reg) (s : State) : Outcome := writeAdvance s x (readV s x &&& readV s y)

/-- XOR Vx, Vy (R135): no flag (R142). -/
def execXorReg (x y : Reg) (s : State) : Outcome := writeAdvance s x (readV s x ^^^ readV s y)

/-- ADD Vx, Vy (R136). -/
def execAddReg (x y : Reg) (s : State) : Outcome :=
  writeFlagAdvance s x (readV s x + readV s y) (carryOut (readV s x) (readV s y))

/-- SUB Vx, Vy (R137). -/
def execSubReg (x y : Reg) (s : State) : Outcome :=
  writeFlagAdvance s x (readV s x - readV s y) (notBorrow (readV s x) (readV s y))

/-- SHR under a setting of SHIFT_SOURCE (R138). -/
def shiftRight (src : ShiftSource) (x y : Reg) (s : State) : Outcome :=
  writeFlagAdvance s x (shiftOperand src s x y >>> 1) (lostRight (shiftOperand src s x y))

/-- SHR Vx {, Vy} (R138). -/
def execShr (x y : Reg) (s : State) : Outcome := shiftRight shiftSource x y s

/-- SUBN Vx, Vy (R139). -/
def execSubnReg (x y : Reg) (s : State) : Outcome :=
  writeFlagAdvance s x (readV s y - readV s x) (notBorrow (readV s y) (readV s x))

/-- SHL under a setting of SHIFT_SOURCE (R140). -/
def shiftLeft (src : ShiftSource) (x y : Reg) (s : State) : Outcome :=
  writeFlagAdvance s x (shiftOperand src s x y <<< 1) (lostLeft (shiftOperand src s x y))

/-- SHL Vx {, Vy} (R140). -/
def execShl (x y : Reg) (s : State) : Outcome := shiftLeft shiftSource x y s

/-- RND Vx, byte (R145): one draw, ANDed with the literal. -/
def execRnd (x : Reg) (kk : Byte) (s : State) : Outcome :=
  writeAdvance (drawRand s).2 x ((drawRand s).1 &&& kk)

end Sys2Proof.Machine
end

