-- ==== Sys2Proof/Machine/ControlFlow.lean ====
section
/-! DEFINITION. The meanings of the control-flow instructions (40_control_flow.md). -/

namespace Sys2Proof.Machine

/-- RET (R100): pop and add 2, or StackUnderflow when the stack is empty. -/
def execRet (s : State) : Outcome :=
  match pop s with
  | none => .next (raiseFault .stackUnderflow (encode .ret) s)
  | some (p, t) => .next (setPc t (p + Config.insnBytes))

/-- JP addr (R101). -/
def execJp (nnn : Addr) (s : State) : Outcome := .next (setPc s (zextAddr nnn))

/-- CALL addr (R102): push the CALL's own address and jump, or StackOverflow when 16 entries are held. -/
def execCall (nnn : Addr) (s : State) : Outcome :=
  match push s s.pc with
  | none => .next (raiseFault .stackOverflow (encode (.call nnn)) s)
  | some t => .next (setPc t (zextAddr nnn))

/-- SE Vx, byte (R103). -/
def execSeByte (x : Reg) (kk : Byte) (s : State) : Outcome := .next (skip (readV s x == kk) s)

/-- SNE Vx, byte (R104). -/
def execSneByte (x : Reg) (kk : Byte) (s : State) : Outcome := .next (skip (readV s x != kk) s)

/-- SE Vx, Vy (R105). -/
def execSeReg (x y : Reg) (s : State) : Outcome := .next (skip (readV s x == readV s y) s)

/-- SNE Vx, Vy (R106). -/
def execSneReg (x y : Reg) (s : State) : Outcome := .next (skip (readV s x != readV s y) s)

/-- JP V0, addr (R107): the sum of the literal and V0, masked by the pc write. -/
def execJpV0 (nnn : Addr) (s : State) : Outcome := .next (setPc s (zextAddr nnn + zextByte (readV s 0)))

end Sys2Proof.Machine
end

