-- ==== Sys2Proof/Machine/Display.lean ====
section
/-! DEFINITION. The meanings of the display instructions (42_display.md). -/

namespace Sys2Proof.Machine

/-- CLS (R170): every cell 0 and dirty, whether or not a cell changed (R176). -/
def execCls (s : State) : Outcome := .next (advance (setFb s Framebuffer.clear))

/-- The canvas DRW leaves: n rows read at I, drawn at (V[x], V[y]), all from the state before (R14, R171). -/
def drawFrom (s : State) (x y : Reg) (n : Nibble) : Canvas :=
  drawSprite (readV s x) (readV s y) (memReadList s s.i n.toNat) s.fb

/-- DRW Vx, Vy, nib (R171): the framebuffer and dirty, then VF, also when n = 0. VF is the
collision of this draw with the screen it found, as R171 says, also where R173's second claim says otherwise (log 14). -/
def execDrw (x y : Reg) (n : Nibble) (s : State) : Outcome :=
  .next (advance (writeFlag (setFb s (drawFrom s x y n).fb) (drawFrom s x y n).hit))

/-- LD F, Vx (R175). -/
def execLdF (x : Reg) (s : State) : Outcome := .next (advance (setI s (glyphAddress (readV s x))))

end Sys2Proof.Machine
end

