-- ==== Sys2Proof/Machine/IndexMemory.lean ====
section
/-! DEFINITION. The meanings of the index register and memory instructions (43_index_memory.md). -/

namespace Sys2Proof.Machine

/-- LD I, addr (R190). -/
def execLdI (nnn : Addr) (s : State) : Outcome := .next (advance (setI s (zextAddr nnn)))

/-- ADD I, Vx under a carry limit (R191): I takes the truncated sum, then VF the carry of the untruncated one. -/
def addIndex (limit : Nat) (x : Reg) (s : State) : Outcome :=
  .next (advance (writeFlag (setI s (indexSum s.i (readV s x))) (indexCarry limit s.i (readV s x))))

/-- ADD I, Vx (R191). -/
def execAddI (x : Reg) (s : State) : Outcome := addIndex fx1eCarryLimit x s

/-- LD B, Vx (R194): three digits at I; I unchanged. -/
def execLdB (x : Reg) (s : State) : Outcome := .next (advance (memWriteList s s.i (bcdDigits (readV s x))))

/-- LD [I], Vx (R195): V0..Vx inclusive at I; I unchanged. -/
def execLdStore (x : Reg) (s : State) : Outcome := .next (advance (memWriteList s s.i (registerBlock s x)))

/-- LD Vx, [I] (R196): V0..Vx inclusive from I; I unchanged. -/
def execLdLoad (x : Reg) (s : State) : Outcome := .next (advance (loadBlock s s.i 0 (x.val + 1)))

end Sys2Proof.Machine
end

