-- ==== Sys2Proof/Machine/TimersKeys.lean ====
section
/-! DEFINITION. The meanings of the timer and key instructions (44_timers_keys.md). -/

namespace Sys2Proof.Machine

/-- LD Vx, DT (R210). -/
def execLdVxDT (x : Reg) (s : State) : Outcome := .next (advance (writeV s x s.dt))

/-- LD DT, Vx (R211). -/
def execLdDT (x : Reg) (s : State) : Outcome := .next (advance (setDT s (readV s x)))

/-- LD ST, Vx (R212). -/
def execLdST (x : Reg) (s : State) : Outcome := .next (advance (setST s (readV s x)))

/-- SKP Vx (R213): KeyIndexOutOfRange when V[x] > 15. -/
def execSkp (x : Reg) (s : State) : Outcome :=
  match keyIndex s x with
  | none => .next (raiseFault .keyIndexOutOfRange (encode (.skp x)) s)
  | some k => .next (skip (keyPressed s k) s)

/-- SKNP Vx (R214): KeyIndexOutOfRange when V[x] > 15. -/
def execSknp (x : Reg) (s : State) : Outcome :=
  match keyIndex s x with
  | none => .next (raiseFault .keyIndexOutOfRange (encode (.sknp x)) s)
  | some k => .next (skip (!keyPressed s k) s)

/-- LD Vx, K (R215): the wait begins; pc is not advanced and no register is written. The wait is completed by
`completeWait` in a later tick. -/
def execLdVxK (x : Reg) (s : State) : Outcome := .next (setStatus s (.awaitingKey x))

end Sys2Proof.Machine
end

