-- ==== Sys2Proof/Machine/Tick.lean ====
section
/-! DEFINITION. The host's interactions with the block: one scheduler tick (60_exceptions.md R234), program load (R251), and
where the next interaction comes from (log 6). The meaning of an instruction is an argument here; Step.lean passes exec. -/

namespace Sys2Proof.Machine

/-- Step 2 (R235): the key events in list order; the last event for a key decides its slot. -/
def applyKeyEvents (es : List KeyEvent) (s : State) : State :=
  { s with key := es.foldl (fun latch e => latch.set e.key e.down) s.key }

/-- The key of the first key-down event (R215, R234 step 4). -/
def firstKeyDown (es : List KeyEvent) : Option Key := (es.find? (·.down)).map (·.key)

/-- Step 4: a pending wait with destination Vx completes on the tick's first key-down event (R215). -/
def completeWait (x : Reg) (es : List KeyEvent) (s : State) : State :=
  match firstKeyDown es with
  | none => s
  | some k => setStatus (advance (writeV s x (BitVec.ofNat 8 k.val))) .running

/-- A timer at 0 stays 0 (R237). -/
def decTimer (t : Byte) : Byte := if t = 0 then 0 else t - 1

/-- Step 5 (R237): both timers by exactly 1 in a tick with `timer_tick`. -/
def timerStep (timerTick : Bool) (s : State) : State :=
  if timerTick then setST (setDT s (decTimer s.dt)) (decTimer s.st) else s

/-- Step 6: fetch, decode, execute; an unknown word raises UnknownInstruction (R76, R230). -/
def executeFetched (run : Instr → State → Outcome) (s : State) : Outcome :=
  match decode (fetch s) with
  | .ok i => run i s
  | .error _ => .next (raiseFault .unknownInstruction (fetch s) s)

/-- Step 7 (R240): if dirty, emit `Present(fb)` and clear dirty. -/
def present (s : State) : State :=
  if s.dirty then { s with presented := s.presented ++ [s.fb], dirty := false } else s

/-- Step 7 after step 6. -/
def presentAfter : Outcome → Outcome
  | .next s => .next (present s)
  | .fault r => .fault r
  | .refused r => .refused r

/-- Steps 3 to 7, by the pause and status gate (R234, R236, R245). -/
def gatedTick (run : Instr → State → Outcome) (inp : TickInput) (s : State) : Outcome :=
  if inp.paused then .next (present s)
  else
    match s.status with
    | .idle => .next (present s)
    | .halted _ _ => .next (present s)
    | .awaitingKey x => .next (present (completeWait x inp.keyEvents s))
    | .running => presentAfter (executeFetched run (timerStep inp.timerTick s))

/-- Step 2 and the tick's random draw: what the input record puts into the state before the gate. -/
def acceptInput (inp : TickInput) (s : State) : State := applyKeyEvents inp.keyEvents { s with draw := inp.draw }

/-- One scheduler tick (R234): quit first, with no further change (R252). -/
def tick (run : Instr → State → Outcome) (inp : TickInput) (s : State) : Outcome :=
  if inp.quit then .fault .endOfRun else gatedTick run inp (acceptInput inp s)

/-- Program load (R251): refused without a change unless Idle, or when too large; else the bytes at 0x200, pc there, and
Running. -/
def loadProgram (bytes : List Byte) (s : State) : State :=
  if s.status ≠ .idle then setLoadResult s .notIdle
  else if Config.maxProgram < bytes.length then setLoadResult s .romTooLarge
  else
    setLoadResult
      (setStatus (setPc (memWriteList s Config.programBase bytes) Config.programBase) .running) .ok

/-- The sound output, `ST ≠ 0` (R249). -/
def soundActive (s : State) : Bool := s.st != 0

/-- The next interaction of the host and the state without it: the oldest of the queue, or a free value when the queue is
empty (log 6). -/
def takeEvent (s : State) : HostEvent × State :=
  match s.hostEvents with
  | e :: es => (e, { s with hostEvents := es })
  | [] => (Config.hostEvent s.hostCount, { s with hostCount := s.hostCount + 1 })

/-- One interaction of the host with the block (R247). -/
def hostStep (run : Instr → State → Outcome) (e : HostEvent) (s : State) : Outcome :=
  match e with
  | .reset => .next (resetBlock s)
  | .load bytes => .next (loadProgram bytes s)
  | .tick inp => tick run inp s

/-- `s` with the instruction word `w` where the next step fetches: at pc in a state that runs, and at 0x200 with pc there,
as a program load puts it (R251), in an Idle one; Running, and the next interaction a plain tick (log 13). -/
def placeWord (w : Word) (s : State) : State :=
  let base := if s.status = .idle then Config.programBase else s.pc
  { memWriteList s base [highByte w, lowByte w] with
    pc := base, status := .running, hostEvents := .tick TickInput.plain :: s.hostEvents }

end Sys2Proof.Machine
end

