-- ==== Sys2Proof/Machine/Step.lean ====
section
/-! DEFINITION. One step of the machine: one interaction of the host with the block (60_exceptions.md R247), taken from
State.hostEvents or, when that is empty, free (log 6). A tick runs at most one instruction, through exec (R239). -/

namespace Sys2Proof.Machine

/-- One step: take the host's next interaction and carry it out. -/
def step (s : State) : Host.Outcome State Fault Refusal := hostStep exec (takeEvent s).1 (takeEvent s).2

/-- `s` with an opcode-table word placed so that the very next step fetches and runs it (log 13). -/
def State.withFetchWord (s : State) (nbits w : Nat) : State := placeWord (tableWord nbits w) s

end Sys2Proof.Machine
end

