-- ==== Sys2Proof/Safety.lean ====
section
/-! DEFINITION. What claims about the machine are stated in: frames, results, the sprite's cells, runs of timer ticks, the
machine's invariant, and a state in which no fault was raised. No meaning uses a definition of this file. -/

namespace Sys2Proof

open Sys2Proof.Machine

/-! ### Words -/

/-- The 16-bit word numbered `w` is decoded to `i`. -/
def DecodesTo (w : Nat) (i : Instr) : Prop := decode (BitVec.ofNat 16 w) = .ok i

/-- The unknown words, by the sets of 30_encoding.md R76. -/
def unknownWord (w : Nat) : Bool :=
  match w / 4096 with
  | 0x0 => w != 0x00E0 && w != 0x00EE
  | 0x5 => w % 16 != 0
  | 0x9 => w % 16 != 0
  | 0x8 => [0x8, 0x9, 0xA, 0xB, 0xC, 0xD, 0xF].contains (w % 16)
  | 0xE => !([0x9E, 0xA1].contains (w % 256))
  | 0xF => !([0x07, 0x0A, 0x15, 0x18, 0x1E, 0x29, 0x33, 0x55, 0x65].contains (w % 256))
  | _ => false

/-! ### Frames and results of one instruction -/

/-- pc moves `k` bytes on, modulo 4096 (40_control_flow.md R108, 10_state.md R24). -/
def PcMoves (s t : State) (k : Nat) : Prop := t.pc.toNat = (s.pc.toNat + k) % 4096

/-- Every byte of memory reads as before. -/
def MemorySame (s t : State) : Prop := ∀ a : Word, memRead t a = memRead s a

/-- Every register reads as before. -/
def RegistersSame (s t : State) : Prop := ∀ y : Reg, readV t y = readV s y

/-- From `s` to `t` only pc changed. -/
structure OnlyPc (s t : State) : Prop where
  rest : t = { s with pc := t.pc }
  registers : RegistersSame s t
  memory : MemorySame s t

/-- From `s` to `t` only Vx and pc changed, and pc by one instruction. -/
structure OnlyRegister (s t : State) (x : Reg) : Prop where
  rest : t = { s with v := t.v, pc := t.pc }
  others : ∀ y, y ≠ x → readV t y = readV s y
  memory : MemorySame s t
  pc : PcMoves s t 2

/-- From `s` to `t` the result `r` went to Vx and the flag `f` to VF, VF last, and pc moved by one instruction; nothing else
changed (10_state.md R22). -/
structure ResultAndFlag (s t : State) (x : Reg) (r : Nat) (f : Prop) : Prop where
  result : x ≠ regVF → (readV t x).toNat = r
  flagSet : f → (readV t regVF).toNat = 1
  flagClear : ¬f → (readV t regVF).toNat = 0
  others : ∀ y, y ≠ x → y ≠ regVF → readV t y = readV s y
  rest : t = { s with v := t.v, pc := t.pc }
  memory : MemorySame s t
  pc : PcMoves s t 2

/-- The registers an instruction may write: its destination, and VF where the spec documents a flag (10_state.md R22). LD Vx, K
writes its destination in the later tick that completes it. -/
def Instr.writesReg : Instr → Reg → Bool
  | .cls, _ => false
  | .ret, _ => false
  | .jp _, _ => false
  | .call _, _ => false
  | .seByte _ _, _ => false
  | .sneByte _ _, _ => false
  | .seReg _ _, _ => false
  | .ldByte x _, y => y == x
  | .addByte x _, y => y == x
  | .ldReg x _, y => y == x
  | .orReg x _, y => y == x
  | .andReg x _, y => y == x
  | .xorReg x _, y => y == x
  | .addReg x _, y => y == x || y == regVF
  | .subReg x _, y => y == x || y == regVF
  | .shr x _, y => y == x || y == regVF
  | .subnReg x _, y => y == x || y == regVF
  | .shl x _, y => y == x || y == regVF
  | .sneReg _ _, _ => false
  | .ldI _, _ => false
  | .jpV0 _, _ => false
  | .rnd x _, y => y == x
  | .drw _ _ _, y => y == regVF
  | .skp _, _ => false
  | .sknp _, _ => false
  | .ldVxDT x, y => y == x
  | .ldVxK _, _ => false
  | .ldDT _, _ => false
  | .ldST _, _ => false
  | .addI _, y => y == regVF
  | .ldF _, _ => false
  | .ldB _, _ => false
  | .ldStore _, _ => false
  | .ldLoad x, y => decide (y ≤ x)

/-- The fault an instruction meets in a state, if any: the conditions of 60_exceptions.md R230. -/
def faultOf (i : Instr) (s : State) : Option FaultCause :=
  match i with
  | .ret => if s.depth.val = 0 then some .stackUnderflow else none
  | .call _ => if s.depth.val = 16 then some .stackOverflow else none
  | .skp x => if 15 < (readV s x).toNat then some .keyIndexOutOfRange else none
  | .sknp x => if 15 < (readV s x).toNat then some .keyIndexOutOfRange else none
  | _ => none

/-! ### The sprite (42_display.md R171, R172) -/

/-- A set bit of the n-row sprite at I, drawn at (V[x], V[y]), maps to the cell: bit 7 - b of row k to column
`(V[x] + b) mod 64`, row `(V[y] + k) mod 32`. -/
def SpriteCovers (s : State) (x y : Reg) (n : Nat) (col : Fin 64) (row : Fin 32) : Prop :=
  ∃ k b : Nat, k < n ∧ b < 8 ∧ (memRead s (s.i + BitVec.ofNat 16 k)).getLsbD (7 - b) = true ∧
    col.val = ((readV s x).toNat + b) % 64 ∧ row.val = ((readV s y).toNat + k) % 32

/-! ### Ticks -/

/-- The next interaction of `s` is a tick with the record `inp` that does not quit; `s'` is `s` without it. -/
structure NextTick (s s' : State) (inp : TickInput) : Prop where
  event : takeEvent s = (.tick inp, s')
  goesOn : inp.quit = false

/-- A key's slot after a list of events: the last event for the key decides, none leaves it (60_exceptions.md R235). -/
def latchAfter (es : List KeyEvent) (old : Bool) (k : Key) : Bool :=
  match (es.filter fun e => e.key == k).getLast? with
  | some e => e.down
  | none => old

/-- A tick that reaches step 5 with `timer_tick` and then runs an instruction: not paused, Running (60_exceptions.md R238). -/
structure TimerTick (s t : State) : Prop where
  running : s.status = .running
  tick : ∃ s' inp, NextTick s s' inp ∧ inp.paused = false ∧ inp.timerTick = true
  answer : step s = .next t

/-- The instruction the next step fetches in `s`, if the word there names one. -/
def fetched (s : State) : Option Instr :=
  match decode (fetch s) with
  | .ok i => some i
  | .error _ => none

/-- `n` timer ticks one after the other, none of whose instructions is one of those `writes` picks out. -/
inductive TimerRun (writes : Instr → Bool) : Nat → State → State → Prop
  | zero (s : State) : TimerRun writes 0 s s
  | succ {n : Nat} {s t u : State} (run : TimerRun writes n s t) (tick : TimerTick t u)
      (quiet : ∀ i, fetched t = some i → writes i = false) : TimerRun writes (n + 1) s u

/-! ### Invariants and simulations -/

/-- What the spec promises of every state between steps: memory in its canonical form; pc and I below 0x1000 (10_state.md
R24, R29); every stack slot holds a masked address (40_control_flow.md R102); and dirty is 0, because every tick ends with
the presentation step (60_exceptions.md R240). -/
structure Invariant (s : State) : Prop where
  mem_wf : s.mem.wf = true
  pc_masked : s.pc.toNat < 0x1000
  i_masked : s.i.toNat < 0x1000
  stack_masked : ∀ k : Fin 16, (s.stack[k]).toNat < 0x1000
  clean : s.dirty = false

/-- The block is not stopped by a fault (60_exceptions.md R233). -/
def NotHalted (s : State) : Prop := ∀ cause word, s.status ≠ .halted cause word

/-- `u` is `s` but for stack slots at or above the depth, which nothing observes (10_state.md R31, R41). -/
structure SameButDeadSlots (s u : State) : Prop where
  rest : u = { s with stack := u.stack }
  live : ∀ k : Fin 16, k.val < s.depth.val → u.stack[k] = s.stack[k]

end Sys2Proof
end

