-- ==== Sys2Proof/Certificates/Slice0/Obligations.lean ====
section
/-! DEFINITION. The statements for the provers. Each formalises numbered rules of spec/ or is derived from them; the
docstring says which. -/

open Sys2Proof Sys2Proof.Machine

/-! ### Encoding -/

/-- Derived from R75 and R82: the decoder reads back every instruction from the word the encoder gives it, with every
operand at every value. -/
def Obligations.DecodeInvertsEncode : Prop :=
  ∀ i : Instr, i.wellFormed = true → decode (encode i) = .ok i

/-- Derived from R75, R76 and R82: a word that decodes is the word of its instruction, so no bit of it is dropped and no two
words name one instruction. -/
def Obligations.EncodeInvertsDecode : Prop :=
  ∀ (w : Word) (i : Instr), decode w = .ok i → encode i = w

/-- R76: the unknown words are exactly the sets the rule lists, 21582 of them; every other word matches exactly one row of
the opcode table; executing an unknown word raises UnknownInstruction and changes nothing else. -/
def Obligations.UnknownWordsAreExactlyTheListedSets : Prop :=
  (∀ w : Word, unknownWord w.toNat = true ↔ decode w = .error (.unknownInstruction w)) ∧
  (∀ w : Word, (opcodeTable.filter fun r => r.covers w).length = if unknownWord w.toNat then 0 else 1) ∧
  ((List.range 256).map fun h => ((List.range 256).filter fun l => unknownWord (256 * h + l)).length).sum = 21582 ∧
  (∀ s : State, unknownWord (fetch s).toNat = true →
    executeFetched exec s = .next { s with status := .halted .unknownInstruction (fetch s) })

/-- R82: the encoding functions give the rule's formula on values in range and refuse a value out of range; and the
formats `encode` builds words with are the ones they give. -/
def Obligations.EncodersRefuseOutOfRange : Prop :=
  (∀ c nnn, encA c nnn = if c ≤ 15 ∧ nnn ≤ 0xFFF then some (BitVec.ofNat 16 (c * 4096 + nnn)) else none) ∧
  (∀ c x kk, encXK c x kk =
    if c ≤ 15 ∧ x ≤ 15 ∧ kk ≤ 255 then some (BitVec.ofNat 16 (c * 4096 + x * 256 + kk)) else none) ∧
  (∀ c x y n, encXY c x y n =
    if c ≤ 15 ∧ x ≤ 15 ∧ y ≤ 15 ∧ n ≤ 15 then some (BitVec.ofNat 16 (c * 4096 + x * 256 + y * 16 + n)) else none) ∧
  (∀ c x k, encX c x k =
    if c ≤ 15 ∧ x ≤ 15 ∧ k ≤ 255 then some (BitVec.ofNat 16 (c * 4096 + x * 256 + k)) else none) ∧
  (∀ (c : Nibble) (a : Addr), encA c.toNat a.toNat = some (wordA c a)) ∧
  (∀ (c : Nibble) (x : Reg) (kk : Byte), encXK c.toNat x.val kk.toNat = some (wordXK c x kk) ∧
    encX c.toNat x.val kk.toNat = some (wordXK c x kk)) ∧
  (∀ (c : Nibble) (x y : Reg) (n : Nibble), encXY c.toNat x.val y.val n.toNat = some (wordXY c x y n))

/-- Derived from R74: words written out from the opcode map, one of each format and the words that differ from them by one
sub-selector, decode to the instruction they stand for or are rejected. -/
def Obligations.SampleWordsDecode : Prop :=
  DecodesTo 0x00E0 .cls ∧ DecodesTo 0x00EE .ret ∧ DecodesTo 0x1ABC (.jp 0xABC) ∧ DecodesTo 0x3F42 (.seByte 15 0x42) ∧
  DecodesTo 0x812E (.shl 1 2) ∧ DecodesTo 0xD12F (.drw 1 2 15) ∧ DecodesTo 0xE5A1 (.sknp 5) ∧ DecodesTo 0xFF65 (.ldLoad 15) ∧
  decode 0x812F = .error (.unknownInstruction 0x812F) ∧ decode 0x5121 = .error (.unknownInstruction 0x5121)

/-! ### Control flow -/

/-- R100: RET on an empty stack raises StackUnderflow with the word 0x00EE and changes nothing else; on a stack of k + 1
entries it pops slot k and goes 2 past the popped address. -/
def Obligations.RetPopsOrUnderflows : Prop :=
  DecodesTo 0x00EE .ret ∧
  ∀ s : State,
    (s.depth.val = 0 → exec .ret s = .next { s with status := .halted .stackUnderflow 0x00EE }) ∧
    (∀ k : Fin 16, s.depth.val = k.val + 1 → ∃ t, exec .ret s = .next t ∧ t.depth.val = k.val ∧
      t.pc.toNat = ((s.stack[k]).toNat + 2) % 4096 ∧ t = { s with depth := t.depth, pc := t.pc } ∧
      RegistersSame s t ∧ MemorySame s t)

/-- R101: JP sets pc to the literal and does nothing else. -/
def Obligations.JpSetsPc : Prop :=
  ∀ (nnn : Addr) (s : State), DecodesTo (0x1000 + nnn.toNat) (.jp nnn) ∧
    ∃ t, exec (.jp nnn) s = .next t ∧ t.pc.toNat = nnn.toNat ∧ OnlyPc s t

/-- R102: CALL on a full stack raises StackOverflow with its own word and changes nothing else; otherwise it pushes its own
address and jumps. -/
def Obligations.CallPushesOrOverflows : Prop :=
  ∀ (nnn : Addr) (s : State), DecodesTo (0x2000 + nnn.toNat) (.call nnn) ∧
    (s.depth.val = 16 →
      exec (.call nnn) s = .next { s with status := .halted .stackOverflow (BitVec.ofNat 16 (0x2000 + nnn.toNat)) }) ∧
    (∀ k : Fin 16, s.depth.val = k.val → ∃ t, exec (.call nnn) s = .next t ∧ t.pc.toNat = nnn.toNat ∧
      t.depth.val = k.val + 1 ∧ t.stack[k] = s.pc ∧ (s.pc.toNat < 0x1000 → (t.stack[k]).toNat < 0x1000) ∧
      (∀ j : Fin 16, j ≠ k → t.stack[j] = s.stack[j]) ∧
      t = { s with stack := t.stack, depth := t.depth, pc := t.pc } ∧ RegistersSame s t ∧ MemorySame s t)

/-- R103, R104: the skips on a literal go 4 on when their condition holds and 2 on when it does not, and change pc alone. -/
def Obligations.LiteralSkips : Prop :=
  ∀ (x : Reg) (kk : Byte) (s : State),
    DecodesTo (0x3000 + x.val * 256 + kk.toNat) (.seByte x kk) ∧ DecodesTo (0x4000 + x.val * 256 + kk.toNat) (.sneByte x kk) ∧
    (∃ t, exec (.seByte x kk) s = .next t ∧ PcMoves s t (if (readV s x).toNat = kk.toNat then 4 else 2) ∧ OnlyPc s t) ∧
    (∃ t, exec (.sneByte x kk) s = .next t ∧ PcMoves s t (if (readV s x).toNat = kk.toNat then 2 else 4) ∧ OnlyPc s t)

/-- R105, R106: the skips on two registers, and the words with a nonzero low nibble, which are unknown. -/
def Obligations.RegisterSkips : Prop :=
  ∀ (x y : Reg) (s : State),
    DecodesTo (0x5000 + x.val * 256 + y.val * 16) (.seReg x y) ∧ DecodesTo (0x9000 + x.val * 256 + y.val * 16) (.sneReg x y) ∧
    (∀ n : Nibble, n ≠ 0 → ∀ w : Word, (w.toNat = 0x5000 + x.val * 256 + y.val * 16 + n.toNat ∨
      w.toNat = 0x9000 + x.val * 256 + y.val * 16 + n.toNat) → decode w = .error (.unknownInstruction w)) ∧
    (∃ t, exec (.seReg x y) s = .next t ∧ PcMoves s t (if (readV s x).toNat = (readV s y).toNat then 4 else 2) ∧ OnlyPc s t) ∧
    (∃ t, exec (.sneReg x y) s = .next t ∧ PcMoves s t (if (readV s x).toNat = (readV s y).toNat then 2 else 4) ∧ OnlyPc s t)

/-- R107: JP V0 adds V0 to the literal, whatever bits 11:8 hold, and the sum is masked to 12 bits. -/
def Obligations.JpV0AddsOffset : Prop :=
  ∀ (nnn : Addr) (s : State), DecodesTo (0xB000 + nnn.toNat) (.jpV0 nnn) ∧
    ∃ t, exec (.jpV0 nnn) s = .next t ∧ t.pc.toNat = (nnn.toNat + (readV s 0).toNat) % 4096 ∧ OnlyPc s t

/-- Derived from R100 and R102 (the spec's own inference, R110): a RET that meets the entry a CALL at p pushed, at the depth the CALL left, goes to p + 2 and brings the depth back;
whatever else happened in between. -/
def Obligations.CallReturnRoundTrip : Prop :=
  ∀ (nnn : Addr) (s t u : State) (k : Fin 16), s.depth.val = k.val → exec (.call nnn) s = .next t →
    u.depth = t.depth → u.stack[k] = t.stack[k] →
    ∃ v, exec .ret u = .next v ∧ v.pc.toNat = (s.pc.toNat + 2) % 4096 ∧ v.depth = s.depth

/-- Derived from R30 and R31: only CALL writes a stack slot, and only the slot at the depth, so an entry in use is never
changed; only CALL and RET change the depth, by one. -/
def Obligations.StackEntriesAreKept : Prop :=
  ∀ (i : Instr) (s : State), ∃ t, exec i s = .next t ∧
    (∀ k : Fin 16, k.val ≠ s.depth.val → t.stack[k] = s.stack[k]) ∧
    (t.stack ≠ s.stack → ∃ nnn, i = .call nnn) ∧
    (t.depth = s.depth ∨ (i = .ret ∧ t.depth.val + 1 = s.depth.val) ∨
      ∃ nnn, i = .call nnn ∧ t.depth.val = s.depth.val + 1)

/-! ### Register and arithmetic instructions -/

/-- R130, R132: the literal load and the copy. -/
def Obligations.LoadsWriteTheirDestination : Prop :=
  (∀ (x : Reg) (kk : Byte) (s : State), DecodesTo (0x6000 + x.val * 256 + kk.toNat) (.ldByte x kk) ∧
    ∃ t, exec (.ldByte x kk) s = .next t ∧ readV t x = kk ∧ OnlyRegister s t x) ∧
  (∀ (x y : Reg) (s : State), DecodesTo (0x8000 + x.val * 256 + y.val * 16) (.ldReg x y) ∧
    ∃ t, exec (.ldReg x y) s = .next t ∧ readV t x = readV s y ∧ OnlyRegister s t x)

/-- R131: ADD Vx, byte wraps modulo 256 and records no carry. -/
def Obligations.AddByteWraps : Prop :=
  ∀ (x : Reg) (kk : Byte) (s : State), DecodesTo (0x7000 + x.val * 256 + kk.toNat) (.addByte x kk) ∧
    ∃ t, exec (.addByte x kk) s = .next t ∧ (readV t x).toNat = ((readV s x).toNat + kk.toNat) % 256 ∧ OnlyRegister s t x

/-- R133, R134, R135, R142: the logic instructions act bit by bit and write no flag. -/
def Obligations.LogicActsBitwise : Prop :=
  ∀ (x y : Reg) (s : State),
    DecodesTo (0x8001 + x.val * 256 + y.val * 16) (.orReg x y) ∧ DecodesTo (0x8002 + x.val * 256 + y.val * 16) (.andReg x y) ∧
    DecodesTo (0x8003 + x.val * 256 + y.val * 16) (.xorReg x y) ∧
    (∃ t, exec (.orReg x y) s = .next t ∧ OnlyRegister s t x ∧
      ∀ b < 8, (readV t x).getLsbD b = ((readV s x).getLsbD b || (readV s y).getLsbD b)) ∧
    (∃ t, exec (.andReg x y) s = .next t ∧ OnlyRegister s t x ∧
      ∀ b < 8, (readV t x).getLsbD b = ((readV s x).getLsbD b && (readV s y).getLsbD b)) ∧
    (∃ t, exec (.xorReg x y) s = .next t ∧ OnlyRegister s t x ∧
      ∀ b < 8, (readV t x).getLsbD b = ((readV s x).getLsbD b ^^ (readV s y).getLsbD b))

/-- R136: the sum modulo 256, and VF the carry, also when the destination or an operand is VF. -/
def Obligations.AddRegCarries : Prop :=
  ∀ (x y : Reg) (s : State), DecodesTo (0x8004 + x.val * 256 + y.val * 16) (.addReg x y) ∧
    ∃ t, exec (.addReg x y) s = .next t ∧
      ResultAndFlag s t x (((readV s x).toNat + (readV s y).toNat) % 256) (255 < (readV s x).toNat + (readV s y).toNat)

/-- R137, R139: the differences modulo 256, and VF = not borrow. -/
def Obligations.SubtractionsBorrow : Prop :=
  ∀ (x y : Reg) (s : State),
    DecodesTo (0x8005 + x.val * 256 + y.val * 16) (.subReg x y) ∧ DecodesTo (0x8007 + x.val * 256 + y.val * 16) (.subnReg x y) ∧
    (∃ t, exec (.subReg x y) s = .next t ∧
      ResultAndFlag s t x (((readV s x).toNat + 256 - (readV s y).toNat) % 256) ((readV s y).toNat ≤ (readV s x).toNat)) ∧
    (∃ t, exec (.subnReg x y) s = .next t ∧
      ResultAndFlag s t x (((readV s y).toNat + 256 - (readV s x).toNat) % 256) ((readV s x).toNat ≤ (readV s y).toNat))

/-- R138, R140: with the default SHIFT_SOURCE, SHR and SHL act on V[x] and put the lost bit in VF; with the alternative the
shared operation acts on V[y] (the parameter of R7). -/
def Obligations.ShiftsLoseABit : Prop :=
  ∀ (x y : Reg) (s : State),
    DecodesTo (0x8006 + x.val * 256 + y.val * 16) (.shr x y) ∧ DecodesTo (0x800E + x.val * 256 + y.val * 16) (.shl x y) ∧
    (∃ t, exec (.shr x y) s = .next t ∧ ResultAndFlag s t x ((readV s x).toNat / 2) ((readV s x).toNat % 2 = 1)) ∧
    (∃ t, exec (.shl x y) s = .next t ∧ ResultAndFlag s t x ((readV s x).toNat * 2 % 256) (128 ≤ (readV s x).toNat)) ∧
    (∃ t, shiftRight .vy x y s = .next t ∧ ResultAndFlag s t x ((readV s y).toNat / 2) ((readV s y).toNat % 2 = 1)) ∧
    (∃ t, shiftLeft .vy x y s = .next t ∧ ResultAndFlag s t x ((readV s y).toNat * 2 % 256) (128 ≤ (readV s y).toNat))

/-- Derived from R145: RND writes one draw ANDed with the literal. How a draw comes about is the model's own (log 5): the byte
the tick's record supplies, or else the next free value, of which nothing is known; each is used once. -/
def Obligations.RndMasksOneDraw : Prop :=
  ∀ (x : Reg) (kk : Byte) (s : State), DecodesTo (0xC000 + x.val * 256 + kk.toNat) (.rnd x kk) ∧
    ∃ (t : State) (r : Byte), exec (.rnd x kk) s = .next t ∧ readV t x = r &&& kk ∧
      ((s.draw = some r ∧ t.draw = none ∧ t.drawCount = s.drawCount) ∨
        (s.draw = none ∧ t.draw = none ∧ r = Config.randByte s.drawCount ∧ t.drawCount = s.drawCount + 1)) ∧
      t = { s with v := t.v, pc := t.pc, draw := t.draw, drawCount := t.drawCount } ∧
      (∀ y, y ≠ x → readV t y = readV s y) ∧ MemorySame s t ∧ PcMoves s t 2

/-- Derived from R20 and R22: over all instructions, a register that is no destination of the instruction and, where the
spec documents no flag, VF, keeps its value. -/
def Obligations.OnlyDestinationsChange : Prop :=
  ∀ (i : Instr) (s : State), ∃ t, exec i s = .next t ∧ ∀ y, i.writesReg y = false → readV t y = readV s y

/-! ### Display -/

/-- R170: CLS clears every cell and marks the screen dirty, whether or not a cell was set. -/
def Obligations.ClsClearsTheScreen : Prop :=
  DecodesTo 0x00E0 .cls ∧
  ∀ s : State, ∃ t, exec .cls s = .next t ∧ (∀ col row, t.fb.cell col row = false) ∧ t.dirty = true ∧ PcMoves s t 2 ∧
    t = { s with fb := t.fb, dirty := t.dirty, pc := t.pc } ∧ RegistersSame s t ∧ MemorySame s t

/-- R171, R172: DRW inverts exactly the cells the sprite's set bits map to, most significant bit leftmost, wrapping; VF says
whether one of them was set; dirty is set, also for n = 0. -/
def Obligations.DrwXorsTheSprite : Prop :=
  ∀ (x y : Reg) (n : Nibble) (s : State), DecodesTo (0xD000 + x.val * 256 + y.val * 16 + n.toNat) (.drw x y n) ∧
    ∃ t, exec (.drw x y n) s = .next t ∧
      (∀ col row, (SpriteCovers s x y n.toNat col row → t.fb.cell col row = !s.fb.cell col row) ∧
        (¬SpriteCovers s x y n.toNat col row → t.fb.cell col row = s.fb.cell col row)) ∧
      ((∃ col row, SpriteCovers s x y n.toNat col row ∧ s.fb.cell col row = true) → (readV t regVF).toNat = 1) ∧
      ((¬∃ col row, SpriteCovers s x y n.toNat col row ∧ s.fb.cell col row = true) → (readV t regVF).toNat = 0) ∧
      (∀ r, r ≠ regVF → readV t r = readV s r) ∧ t.dirty = true ∧ PcMoves s t 2 ∧ MemorySame s t ∧
      t = { s with v := t.v, fb := t.fb, dirty := t.dirty, pc := t.pc }

/-- Derived from R171 (the spec's own inference, R173's first claim): a second DRW with the same I, sprite bytes, coordinates and row count gives every
cell its value before the first. -/
def Obligations.DrwTwiceRestoresTheScreen : Prop :=
  ∀ (x y x' y' : Reg) (n : Nibble) (s t u : State), exec (.drw x y n) s = .next t →
    u.fb = t.fb → u.i = s.i → readV u x' = readV s x → readV u y' = readV s y →
    (∀ k < n.toNat, memRead u (s.i + BitVec.ofNat 16 k) = memRead s (s.i + BitVec.ofNat 16 k)) →
    ∃ v, exec (.drw x' y' n) u = .next v ∧ v.fb = s.fb

/-- Derived: R173 as the spec words it, both claims (the spec marks it as its own inference from R171). Its second claim
contradicts R171: a sprite whose bits all fall on set cells turns them off, so the second draw finds none of them set and gives
VF = 0 (log 14). Expected to FAIL. -/
def Obligations.DrwTwiceSecondFlagIffAnyBit : Prop :=
  ∀ (x y x' y' : Reg) (n : Nibble) (s t u v : State), exec (.drw x y n) s = .next t →
    u.fb = t.fb → u.i = s.i → readV u x' = readV s x → readV u y' = readV s y →
    (∀ k < n.toNat, memRead u (s.i + BitVec.ofNat 16 k) = memRead s (s.i + BitVec.ofNat 16 k)) →
    exec (.drw x' y' n) u = .next v →
    v.fb = s.fb ∧
    ((readV v regVF).toNat = 1 ↔ ∃ k b, k < n.toNat ∧ b < 8 ∧ (memRead s (s.i + BitVec.ofNat 16 k)).getLsbD b = true)

/-- Derived from R171 (the spec's own inference, R174): a sprite drawn with its origin at column 63 continues at columns 0 to 6; and its rows wrap from 31 to 0. Stated of
the cells of one row of the screen that sprite row k lies on. -/
def Obligations.SpriteWrapsAtColumn63 : Prop :=
  ∀ (x y : Reg) (n : Nibble) (s : State) (k : Nat) (row : Fin 32), (readV s x).toNat % 64 = 63 → k < n.toNat →
    row.val = ((readV s y).toNat % 32 + k) % 32 →
    ∃ t, exec (.drw x y n) s = .next t ∧
      t.fb.cell 63 row = (s.fb.cell 63 row ^^ (memRead s (s.i + BitVec.ofNat 16 k)).getLsbD 7) ∧
      (∀ c : Fin 64, c.val < 7 →
        t.fb.cell c row = (s.fb.cell c row ^^ (memRead s (s.i + BitVec.ofNat 16 k)).getLsbD (6 - c.val))) ∧
      (∀ c : Fin 64, 7 ≤ c.val → c.val < 63 → t.fb.cell c row = s.fb.cell c row)

/-- R175: LD F gives I five times the low nibble of V[x], and changes nothing else. -/
def Obligations.LdFPointsAtTheGlyph : Prop :=
  ∀ (x : Reg) (s : State), DecodesTo (0xF029 + x.val * 256) (.ldF x) ∧
    ∃ t, exec (.ldF x) s = .next t ∧ t.i.toNat = (readV s x).toNat % 16 * 5 ∧ PcMoves s t 2 ∧
      t = { s with i := t.i, pc := t.pc } ∧ RegistersSame s t ∧ MemorySame s t

/-- Derived from R37 and R176: over all instructions, dirty is set by CLS and DRW and by nothing else, is cleared by none, and
a cell changes in no other instruction. -/
def Obligations.OnlyClsAndDrwTouchTheScreen : Prop :=
  ∀ (i : Instr) (s : State), ∃ t, exec i s = .next t ∧
    (t.dirty = true ↔ s.dirty = true ∨ i = .cls ∨ ∃ x y n, i = .drw x y n) ∧
    (t.fb ≠ s.fb → i = .cls ∨ ∃ x y n, i = .drw x y n)

/-! ### Index register and memory -/

/-- R190: LD I takes the 12-bit literal. -/
def Obligations.LdITakesTheLiteral : Prop :=
  ∀ (nnn : Addr) (s : State), DecodesTo (0xA000 + nnn.toNat) (.ldI nnn) ∧
    ∃ t, exec (.ldI nnn) s = .next t ∧ t.i.toNat = nnn.toNat ∧ PcMoves s t 2 ∧
      t = { s with i := t.i, pc := t.pc } ∧ RegistersSame s t ∧ MemorySame s t

/-- R191: I takes the sum truncated to 12 bits, and VF says whether the untruncated sum exceeds the limit, 0xFF by default;
the same of the shared operation for any limit (FX1E_CARRY_LIMIT of R7). -/
def Obligations.AddITruncatesAndFlags : Prop :=
  ∀ (x : Reg) (s : State), DecodesTo (0xF01E + x.val * 256) (.addI x) ∧
    (∃ t, exec (.addI x) s = .next t ∧ t = { s with i := t.i, v := t.v, pc := t.pc } ∧
      t.i.toNat = (s.i.toNat + (readV s x).toNat) % 4096 ∧
      (readV t regVF).toNat = (if 0xFF < s.i.toNat + (readV s x).toNat then 1 else 0) ∧
      (∀ y, y ≠ regVF → readV t y = readV s y) ∧ PcMoves s t 2 ∧ MemorySame s t) ∧
    (∀ limit : Nat, ∃ t, addIndex limit x s = .next t ∧ t = { s with i := t.i, v := t.v, pc := t.pc } ∧
      t.i.toNat = (s.i.toNat + (readV s x).toNat) % 4096 ∧
      (readV t regVF).toNat = (if limit < s.i.toNat + (readV s x).toNat then 1 else 0) ∧
      (∀ y, y ≠ regVF → readV t y = readV s y) ∧ PcMoves s t 2 ∧ MemorySame s t)

/-- R194: LD B stores the three decimal digits of V[x] at I, I + 1 and I + 2, each address masked on its own; no other byte
changes, and I does not. -/
def Obligations.LdBStoresThreeDigits : Prop :=
  ∀ (x : Reg) (s : State), DecodesTo (0xF033 + x.val * 256) (.ldB x) ∧
    ∃ t, exec (.ldB x) s = .next t ∧
      (memRead t s.i).toNat = (readV s x).toNat / 100 ∧
      (memRead t (s.i + 1)).toNat = (readV s x).toNat / 10 % 10 ∧
      (memRead t (s.i + 2)).toNat = (readV s x).toNat % 10 ∧
      (∀ a : Word, (∀ k < 3, memIndex a ≠ memIndex (s.i + BitVec.ofNat 16 k)) → memRead t a = memRead s a) ∧
      t = { s with mem := t.mem, pc := t.pc } ∧ RegistersSame s t ∧ PcMoves s t 2

/-- R195: LD [I], Vx stores V0 to Vx inclusive at I on, wrapping; no other byte changes, and I does not. -/
def Obligations.BlockStoreStoresInclusive : Prop :=
  ∀ (x : Reg) (s : State), DecodesTo (0xF055 + x.val * 256) (.ldStore x) ∧
    ∃ t, exec (.ldStore x) s = .next t ∧
      (∀ k : Reg, k ≤ x → memRead t (s.i + BitVec.ofNat 16 k.val) = readV s k) ∧
      (∀ a : Word, (∀ k : Reg, k ≤ x → memIndex a ≠ memIndex (s.i + BitVec.ofNat 16 k.val)) → memRead t a = memRead s a) ∧
      t = { s with mem := t.mem, pc := t.pc } ∧ RegistersSame s t ∧ PcMoves s t 2

/-- R196: LD Vx, [I] loads V0 to Vx inclusive from I on, wrapping; no other register changes, memory and I do not. -/
def Obligations.BlockLoadLoadsInclusive : Prop :=
  ∀ (x : Reg) (s : State), DecodesTo (0xF065 + x.val * 256) (.ldLoad x) ∧
    ∃ t, exec (.ldLoad x) s = .next t ∧
      (∀ k : Reg, k ≤ x → readV t k = memRead s (s.i + BitVec.ofNat 16 k.val)) ∧
      (∀ k : Reg, x < k → readV t k = readV s k) ∧
      t = { s with v := t.v, pc := t.pc } ∧ MemorySame s t ∧ PcMoves s t 2

/-- Derived from R195 and R196 ("Block load: the inverse"): a block load that meets the bytes a block store left, through the
same I, gives every stored register its value at the store, whatever the registers held in between. -/
def Obligations.BlockLoadInvertsBlockStore : Prop :=
  ∀ (x : Reg) (s t u : State), exec (.ldStore x) s = .next t → u.mem = t.mem → u.i = t.i →
    ∃ v, exec (.ldLoad x) u = .next v ∧ ∀ k : Reg, k ≤ x → readV v k = readV s k

/-- Derived from R62 and R195: a block store over the next instruction's two bytes is what the very next fetch reads, high byte first. -/
def Obligations.NextFetchSeesTheStore : Prop :=
  ∀ (x : Reg) (s : State), 1 ≤ x.val → memIndex s.i = (s.pc.toNat + 2) % 4096 →
    ∃ t, exec (.ldStore x) s = .next t ∧ (fetch t).toNat = (readV s 0).toNat * 256 + (readV s 1).toNat

/-- R52, R54: a fetch at any pc, even or odd, reads the high byte at pc and the low byte at the next address, each masked to 12
bits. -/
def Obligations.FetchIsBigEndianAndWraps : Prop :=
  ∀ (s : State) (a b : Word), a.toNat % 4096 = s.pc.toNat % 4096 → b.toNat % 4096 = (s.pc.toNat + 1) % 4096 →
    (fetch s).toNat = (memRead s a).toNat * 256 + (memRead s b).toNat

/-! ### Timers and keys -/

/-- R210, R211, R212: the timer instructions move a byte between Vx and a timer; the sound output follows ST at once. -/
def Obligations.TimerMoves : Prop :=
  ∀ (x : Reg) (s : State),
    DecodesTo (0xF007 + x.val * 256) (.ldVxDT x) ∧ DecodesTo (0xF015 + x.val * 256) (.ldDT x) ∧
    DecodesTo (0xF018 + x.val * 256) (.ldST x) ∧
    (∃ t, exec (.ldVxDT x) s = .next t ∧ readV t x = s.dt ∧ OnlyRegister s t x) ∧
    (∃ t, exec (.ldDT x) s = .next t ∧ t.dt = readV s x ∧ t = { s with dt := t.dt, pc := t.pc } ∧ RegistersSame s t ∧
      MemorySame s t ∧ PcMoves s t 2) ∧
    (∃ t, exec (.ldST x) s = .next t ∧ t.st = readV s x ∧ (soundActive t = true ↔ readV s x ≠ 0) ∧
      t = { s with st := t.st, pc := t.pc } ∧ RegistersSame s t ∧ MemorySame s t ∧ PcMoves s t 2)

/-- R210, with R234 step 5: in a tick, LD Vx, DT writes to Vx what DT holds after that tick's timer step, and advances; no other
register changes. -/
def Obligations.DelayTimerReadAfterTimerStep : Prop :=
  ∀ (s s' : State) (inp : TickInput) (x : Reg), NextTick s s' inp → inp.paused = false → s.status = .running →
    decode (fetch s) = .ok (.ldVxDT x) →
    ∃ t, step s = .next t ∧ (readV t x).toNat = (if inp.timerTick then s.dt.toNat - 1 else s.dt.toNat) ∧
      t.dt.toNat = (if inp.timerTick then s.dt.toNat - 1 else s.dt.toNat) ∧
      (∀ y, y ≠ x → readV t y = readV s y) ∧ MemorySame s t ∧ PcMoves s t 2

/-- R213, R214: SKP and SKNP raise KeyIndexOutOfRange when V[x] > 15 and change nothing else; otherwise they skip on the
latch, and in a tick on the latch as that tick's key events leave it. -/
def Obligations.KeySkips : Prop :=
  ∀ (x : Reg) (s : State),
    DecodesTo (0xE09E + x.val * 256) (.skp x) ∧ DecodesTo (0xE0A1 + x.val * 256) (.sknp x) ∧
    (15 < (readV s x).toNat →
      exec (.skp x) s = .next { s with status := .halted .keyIndexOutOfRange (BitVec.ofNat 16 (0xE09E + x.val * 256)) } ∧
      exec (.sknp x) s = .next { s with status := .halted .keyIndexOutOfRange (BitVec.ofNat 16 (0xE0A1 + x.val * 256)) }) ∧
    (∀ k : Key, (readV s x).toNat = k.val →
      (∃ t, exec (.skp x) s = .next t ∧ PcMoves s t (if s.key[k] then 4 else 2) ∧ OnlyPc s t) ∧
      (∃ t, exec (.sknp x) s = .next t ∧ PcMoves s t (if s.key[k] then 2 else 4) ∧ OnlyPc s t)) ∧
    (∀ (s' : State) (inp : TickInput) (k : Key), NextTick s s' inp → inp.paused = false → s.status = .running →
      (readV s x).toNat = k.val →
      (fetched s = some (.skp x) →
        ∃ t, step s = .next t ∧ PcMoves s t (if latchAfter inp.keyEvents s.key[k] k then 4 else 2)) ∧
      (fetched s = some (.sknp x) →
        ∃ t, step s = .next t ∧ PcMoves s t (if latchAfter inp.keyEvents s.key[k] k then 2 else 4)))

/-- R215: the wait begins with pc and the registers as they are; a later tick that is not paused completes it on its first
key-down event and not without one; the timers do not step, and no instruction runs, in such a tick. -/
def Obligations.WaitForKey : Prop :=
  (∀ (x : Reg) (s : State), DecodesTo (0xF00A + x.val * 256) (.ldVxK x) ∧
    exec (.ldVxK x) s = .next { s with status := .awaitingKey x }) ∧
  (∀ (s s' : State) (inp : TickInput) (x : Reg), NextTick s s' inp → inp.paused = false → s.status = .awaitingKey x →
    ∃ t, step s = .next t ∧ t.dt = s.dt ∧ t.st = s.st ∧ t.i = s.i ∧ t.mem = s.mem ∧ t.stack = s.stack ∧
      t.depth = s.depth ∧ t.fb = s.fb ∧ (∀ y, y ≠ x → readV t y = readV s y) ∧
      ((∀ e ∈ inp.keyEvents, e.down = false) → t.status = .awaitingKey x ∧ t.pc = s.pc ∧ readV t x = readV s x) ∧
      (∀ (before after : List KeyEvent) (k : Key), inp.keyEvents = before ++ { key := k, down := true } :: after →
        (∀ e ∈ before, e.down = false) → t.status = .running ∧ PcMoves s t 2 ∧ (readV t x).toNat = k.val))

/-- Derived from R28, R34, R38 and R250: over all instructions, the key latch, the Present events, the load result and the
host's queue are never written, DT and ST only by their own stores, and I only by LD I, ADD I and LD F. -/
def Obligations.SpecialStateWriters : Prop :=
  ∀ (i : Instr) (s : State), ∃ t, exec i s = .next t ∧ t.key = s.key ∧
    t.presented = s.presented ∧ t.loadResult = s.loadResult ∧ t.hostEvents = s.hostEvents ∧ t.hostCount = s.hostCount ∧
    (t.dt ≠ s.dt → ∃ x, i = .ldDT x) ∧ (t.st ≠ s.st → ∃ x, i = .ldST x) ∧
    (t.i ≠ s.i → (∃ nnn, i = .ldI nnn) ∨ (∃ x, i = .addI x) ∨ ∃ x, i = .ldF x)

/-- Derived from R34 and R41: no instruction reads ST or dirty: two states that differ in them alone still do after any
instruction, but for the instruction that writes them. -/
def Obligations.SoundTimerAndDirtyAreUnread : Prop :=
  ∀ (i : Instr) (s : State) (b : Byte) (d : Bool), ∃ t u, exec i s = .next t ∧ exec i { s with st := b, dirty := d } = .next u ∧
    u = { t with st := u.st, dirty := u.dirty }

/-! ### Faults -/

/-- R230, R231: an instruction faults exactly on its rule's condition, with its own word recorded and nothing else
changed, pc among it; otherwise it raises none; an unknown word raises UnknownInstruction; the timer step of the same tick stays; and the codes are 1 to 4. -/
def Obligations.FaultsArePreciseAndNoOthers : Prop :=
  (∀ (i : Instr) (s : State),
    (∀ c, faultOf i s = some c → exec i s = .next { s with status := .halted c (encode i) }) ∧
    (faultOf i s = none → ∃ t, exec i s = .next t ∧ (t.status = s.status ∨ ∃ x, i = .ldVxK x ∧ t.status = .awaitingKey x))) ∧
  (∀ (s : State) (e : DecodeError), decode (fetch s) = .error e →
    executeFetched exec s = .next { s with status := .halted .unknownInstruction (fetch s) }) ∧
  (∀ (s s' : State) (inp : TickInput) (i : Instr) (c : FaultCause), NextTick s s' inp → inp.paused = false →
    s.status = .running → fetched s = some i → faultOf i s = some c →
    ∃ t, step s = .next t ∧ t.status = .halted c (fetch s) ∧ t.pc = s.pc ∧ t.v = s.v ∧ t.i = s.i ∧ t.mem = s.mem ∧
      t.stack = s.stack ∧ t.depth = s.depth ∧ t.fb = s.fb ∧
      t.dt.toNat = (if inp.timerTick then s.dt.toNat - 1 else s.dt.toNat) ∧
      t.st.toNat = (if inp.timerTick then s.st.toNat - 1 else s.st.toNat)) ∧
  FaultCause.code .stackOverflow = 1 ∧ FaultCause.code .stackUnderflow = 2 ∧ FaultCause.code .unknownInstruction = 3 ∧
  FaultCause.code .keyIndexOutOfRange = 4

/-- R233: no tick leaves Halted; while halted the timers, pc, registers, memory and screen stay, and the key latch follows
key events; a reset leaves it. -/
def Obligations.HaltedUntilReset : Prop :=
  ∀ (s s' : State) (c : FaultCause) (w : Word), s.status = .halted c w →
    (∀ inp, NextTick s s' inp → ∃ t, step s = .next t ∧ t.status = .halted c w ∧ t.dt = s.dt ∧ t.st = s.st ∧ t.pc = s.pc ∧
      t.v = s.v ∧ t.i = s.i ∧ t.mem = s.mem ∧ t.stack = s.stack ∧ t.depth = s.depth ∧ t.fb = s.fb ∧
      ∀ k : Key, t.key[k] = latchAfter inp.keyEvents s.key[k] k) ∧
    (∀ bytes, takeEvent s = (.load bytes, s') → ∃ t, step s = .next t ∧ t.status = .halted c w) ∧
    (takeEvent s = (.reset, s') → ∃ t, step s = .next t ∧ t.status = .idle)

/-! ### The tick -/

/-- Derived from R234: in a tick that is not paused, of a Running block, whose word at pc decodes to i, the step is exec of i
on the state with the key events, the draw and the timer step put in, and then the presentation step. -/
def Obligations.StepRunsTheDecodedInstruction : Prop :=
  ∀ (s s' : State) (inp : TickInput) (i : Instr), NextTick s s' inp → inp.paused = false → s.status = .running →
    decode (fetch s) = .ok i → i.wellFormed = true →
    step s = presentAfter (exec i (timerStep inp.timerTick (acceptInput inp s')))

/-- Derived from R252 and R248: a step answers a next state, but in a tick with quit, which ends the run; no step is
refused. -/
def Obligations.OnlyQuitStops : Prop :=
  ∀ s : State,
    (∀ inp s', takeEvent s = (.tick inp, s') → inp.quit = true → step s = .fault .endOfRun) ∧
    ((∀ inp s', takeEvent s = (.tick inp, s') → inp.quit = false) → ∃ t, step s = .next t)

/-- R235: after a tick, in every status and also when paused, each key's slot is what the last event for it says, or as
before without one. -/
def Obligations.KeyEventsApplyInOrder : Prop :=
  ∀ (s s' : State) (inp : TickInput), NextTick s s' inp →
    ∃ t, step s = .next t ∧ ∀ k : Key, t.key[k] = latchAfter inp.keyEvents s.key[k] k

/-- Derived from R236, and for Idle from R234 step 3, R245 and R271: a paused or Idle tick applies the key events and presents if
dirty, and does nothing else. The model's own fields are framed too: the record's random byte is in State.draw (log 5), the
interaction is taken from the queue (log 6), and the frames are kept in State.presented (log 7). -/
def Obligations.PausedOrIdleTickOnlyTakesKeys : Prop :=
  ∀ (s s' : State) (inp : TickInput), NextTick s s' inp → inp.paused = true ∨ s.status = .idle →
    ∃ t, step s = .next t ∧
      t = { s' with key := t.key, draw := inp.draw, dirty := false, presented := t.presented } ∧
      (∀ k : Key, t.key[k] = latchAfter inp.keyEvents s.key[k] k) ∧
      t.presented = (if s.dirty then s.presented ++ [s.fb] else s.presented)

/-- R237: in a Running tick that is not paused, both timers step before the instruction, each down by exactly 1 if
nonzero, with timer_tick, and neither without it; an instruction that does not write them leaves them so. -/
def Obligations.TimersStepTogether : Prop :=
  ∀ (s s' : State) (inp : TickInput), NextTick s s' inp → inp.paused = false → s.status = .running →
    ∃ t, step s = .next t ∧
      ((∀ x, fetched s ≠ some (.ldDT x)) → t.dt.toNat = if inp.timerTick then s.dt.toNat - 1 else s.dt.toNat) ∧
      ((∀ x, fetched s ≠ some (.ldST x)) → t.st.toNat = if inp.timerTick then s.st.toNat - 1 else s.st.toNat)

/-- Derived from R234 and R237 (the spec's own inference, R238): over n timer ticks with no instruction that writes it, a timer holding V comes to max(0, V − n). -/
def Obligations.TimerCadence : Prop :=
  (∀ (n : Nat) (s t : State), TimerRun (fun i => match i with | .ldDT _ => true | _ => false) n s t →
    t.dt.toNat = s.dt.toNat - n) ∧
  (∀ (n : Nat) (s t : State), TimerRun (fun i => match i with | .ldST _ => true | _ => false) n s t →
    t.st.toNat = s.st.toNat - n)

/-- R240: every tick that does not quit ends with dirty 0; it emits at most one Present event, whose frame is the
framebuffer as the tick leaves it; a CLS or DRW, or a screen already dirty, makes it emit one. -/
def Obligations.PresentIfDirty : Prop :=
  ∀ (s s' : State) (inp : TickInput), NextTick s s' inp →
    ∃ t, step s = .next t ∧ t.dirty = false ∧
      ((t.presented = s.presented ++ [t.fb] ∧
          (s.dirty = true ∨ fetched s = some .cls ∨ ∃ x y n, fetched s = some (.drw x y n))) ∨
        (t.presented = s.presented ∧ s.dirty = false ∧ t.fb = s.fb)) ∧
      (inp.paused = false → s.status = .running → (fetched s = some .cls ∨ ∃ x y n, fetched s = some (.drw x y n)) →
        t.presented = s.presented ++ [t.fb])

/-- R251: a load when not Idle, or of more than 0x0E00 bytes, changes nothing but the result it gives; otherwise the bytes lie
at 0x200 on, no other byte changes, pc is 0x200 and the block is Running. -/
def Obligations.LoadProgramOrRefuse : Prop :=
  ∀ (s s' : State) (bytes : List Byte), takeEvent s = (.load bytes, s') →
    (s.status ≠ .idle → step s = .next { s' with loadResult := some .notIdle }) ∧
    (s.status = .idle → 0x0E00 < bytes.length → step s = .next { s' with loadResult := some .romTooLarge }) ∧
    (s.status = .idle → bytes.length ≤ 0x0E00 → ∃ t, step s = .next t ∧ t.pc.toNat = 0x200 ∧ t.status = .running ∧
      t.loadResult = some .ok ∧ t = { s' with mem := t.mem, pc := t.pc, status := t.status, loadResult := t.loadResult } ∧
      (∀ (k : Nat) (hk : k < bytes.length) (a : Word), memIndex a = 0x200 + k → memRead t a = bytes[k]) ∧
      (∀ a : Word, (memIndex a < 0x200 ∨ 0x200 + bytes.length ≤ memIndex a) → memRead t a = memRead s a))

/-- R270: the reset event gives every piece of the block's state its reset value, from any state. -/
def Obligations.ResetEventResets : Prop :=
  ∀ s s' : State, takeEvent s = (.reset, s') → ∃ t, step s = .next t ∧
    (∀ x, (readV t x).toNat = 0) ∧ t.i.toNat = 0 ∧ t.pc.toNat = 0 ∧ (∀ k : Fin 16, (t.stack[k]).toNat = 0) ∧
    t.depth.val = 0 ∧ t.dt.toNat = 0 ∧ t.st.toNat = 0 ∧
    (∀ a : Word, memIndex a < 80 → memRead t a = fontBytes.getD (memIndex a) 0) ∧
    (∀ a : Word, 80 ≤ memIndex a → (memRead t a).toNat = 0) ∧
    (∀ col row, t.fb.cell col row = false) ∧ t.dirty = false ∧ (∀ k : Key, t.key[k] = false) ∧ t.status = .idle

/-! ### Invariants and simulations -/

/-- Derived from R42: the reset state meets the invariant. -/
def Obligations.ResetMeetsInvariant : Prop := Invariant State.reset

/-- Derived from R24, R29, R50 and R240: every step keeps the invariant: memory in canonical form, pc, I and every stack slot
below 0x1000, dirty 0. -/
def Obligations.StepKeepsInvariant : Prop :=
  ∀ s t : State, Invariant s → step s = .next t → Invariant t

/-- Derived from R24, over all instructions: whatever pc was, an instruction that writes it leaves it below 0x1000. -/
def Obligations.PcWritesAreMasked : Prop :=
  ∀ (i : Instr) (s : State), ∃ t, exec i s = .next t ∧ (t.pc ≠ s.pc → t.pc.toNat < 0x1000)

/-- Derived from R41 and R31: the content of stack slots at or above the depth is never observed: two machines that differ
there alone take the same steps and put out the same. -/
def Obligations.DeadStackSlotsAreUnobserved : Prop :=
  ∀ s u t : State, SameButDeadSlots s u → step s = .next t → ∃ w, step u = .next w ∧ SameButDeadSlots t w

/-! ### The flag of a repeated draw -/

/-- Derived from R171 and R173 (log 14): a second DRW with the same I, sprite bytes, coordinates and row count restores the
screen, and gives VF = 1 exactly when a cell the sprite covers was clear before the first. So, where the first turned no
cell off (its VF is 0), it gives VF = 1 if and only if the sprite has a set bit, as R173 says without that condition. -/
def Obligations.DrwTwiceFlagsTheClearCells : Prop :=
  ∀ (x y x' y' : Reg) (n : Nibble) (s t u : State), exec (.drw x y n) s = .next t →
    u.fb = t.fb → u.i = s.i → readV u x' = readV s x → readV u y' = readV s y →
    (∀ k < n.toNat, memRead u (s.i + BitVec.ofNat 16 k) = memRead s (s.i + BitVec.ofNat 16 k)) →
    ∃ v, exec (.drw x' y' n) u = .next v ∧ v.fb = s.fb ∧
      ((∃ col row, SpriteCovers s x y n.toNat col row ∧ s.fb.cell col row = false) → (readV v regVF).toNat = 1) ∧
      ((¬∃ col row, SpriteCovers s x y n.toNat col row ∧ s.fb.cell col row = false) → (readV v regVF).toNat = 0) ∧
      ((readV t regVF).toNat = 0 → ((readV v regVF).toNat = 1 ↔
        ∃ k b, k < n.toNat ∧ b < 8 ∧ (memRead s (s.i + BitVec.ofNat 16 k)).getLsbD b = true))
end

