-- ==== Sys2Proof/Laws/Decode.lean ====
section
/-! SUPPORT. The fields of an encoded word are the fields it was made of; a word is made of its fields; words, fields and the
opcode table's rows as numbers. -/

namespace Sys2Proof

theorem category_wordA (c : Nibble) (a : Addr) : category (wordA c a) = c := by
  apply BitVec.eq_of_getLsbD_eq; intro i hi
  interval_cases i <;> simp [category, wordA]

theorem fieldNNN_wordA (c : Nibble) (a : Addr) : fieldNNN (wordA c a) = a := by
  apply BitVec.eq_of_getLsbD_eq; intro i hi
  interval_cases i <;> simp [fieldNNN, wordA]

theorem category_wordXK (c : Nibble) (x : Reg) (kk : Byte) : category (wordXK c x kk) = c := by
  apply BitVec.eq_of_getLsbD_eq; intro i hi
  interval_cases i <;> simp [category, wordXK]

theorem fieldX_wordXK (c : Nibble) (x : Reg) (kk : Byte) : fieldX (wordXK c x kk) = x := by
  have h : nibbleX (wordXK c x kk) = BitVec.ofFin (w := 4) x := by
    apply BitVec.eq_of_getLsbD_eq; intro i hi
    interval_cases i <;> simp [nibbleX, wordXK]
  rw [fieldX, h]

theorem fieldKK_wordXK (c : Nibble) (x : Reg) (kk : Byte) : fieldKK (wordXK c x kk) = kk := by
  apply BitVec.eq_of_getLsbD_eq; intro i hi
  interval_cases i <;> simp [fieldKK, wordXK]

theorem category_wordXY (c : Nibble) (x y : Reg) (n : Nibble) : category (wordXY c x y n) = c := by
  apply BitVec.eq_of_getLsbD_eq; intro i hi
  interval_cases i <;> simp [category, wordXY]

theorem fieldX_wordXY (c : Nibble) (x y : Reg) (n : Nibble) : fieldX (wordXY c x y n) = x := by
  have h : nibbleX (wordXY c x y n) = BitVec.ofFin (w := 4) x := by
    apply BitVec.eq_of_getLsbD_eq; intro i hi
    interval_cases i <;> simp [nibbleX, wordXY]
  rw [fieldX, h]

theorem fieldY_wordXY (c : Nibble) (x y : Reg) (n : Nibble) : fieldY (wordXY c x y n) = y := by
  have h : nibbleY (wordXY c x y n) = BitVec.ofFin (w := 4) y := by
    apply BitVec.eq_of_getLsbD_eq; intro i hi
    interval_cases i <;> simp [nibbleY, wordXY]
  rw [fieldY, h]

theorem fieldN_wordXY (c : Nibble) (x y : Reg) (n : Nibble) : fieldN (wordXY c x y n) = n := by
  apply BitVec.eq_of_getLsbD_eq; intro i hi
  interval_cases i <;> simp [fieldN, wordXY]

/-- The two bytes of a word, high byte first, make the word again (R52, R70). -/
@[simp] theorem concatBytes_highByte_lowByte (w : Word) : concatBytes (highByte w) (lowByte w) = w := by
  apply BitVec.eq_of_getLsbD_eq; intro i hi
  interval_cases i <;> simp [concatBytes, highByte, lowByte]

/-- The exact value of `a ++ b` (R8). -/
theorem concatBytes_toNat (a b : Byte) : (concatBytes a b).toNat = a.toNat * 256 + b.toNat := by
  have ha := a.isLt
  have hb := b.isLt
  have hs : (a.setWidth 16 <<< 8 : Word).toNat = a.toNat <<< 8 := by
    rw [BitVec.toNat_shiftLeft, BitVec.toNat_setWidth, Nat.shiftLeft_eq, Nat.shiftLeft_eq]
    omega
  have hlow : (b.setWidth 16 : Word).toNat = b.toNat := by
    rw [BitVec.toNat_setWidth]
    omega
  rw [concatBytes, BitVec.toNat_or, hs, hlow, ← Nat.shiftLeft_add_eq_or_of_lt hb, Nat.shiftLeft_eq]

/-! ### A word is made of its fields -/

theorem wordA_fields (w : Word) : wordA (category w) (fieldNNN w) = w := by
  apply BitVec.eq_of_getLsbD_eq; intro i hi
  interval_cases i <;> simp [category, fieldNNN, wordA]

theorem ofFin_toFin (n : Nibble) : BitVec.ofFin (w := 4) n.toFin = n := rfl

theorem wordXK_fields (w : Word) : wordXK (category w) (fieldX w) (fieldKK w) = w := by
  rw [wordXK, fieldX, ofFin_toFin]
  apply BitVec.eq_of_getLsbD_eq; intro i hi
  interval_cases i <;> simp [category, nibbleX, fieldKK]

theorem wordXY_fields (w : Word) : wordXY (category w) (fieldX w) (fieldY w) (fieldN w) = w := by
  rw [wordXY, fieldX, fieldY, ofFin_toFin, ofFin_toFin]
  apply BitVec.eq_of_getLsbD_eq; intro i hi
  interval_cases i <;> simp [category, nibbleX, nibbleY, fieldN]

/-! ### Fields and words as numbers -/

theorem category_toNat (w : Word) : (category w).toNat = w.toNat / 4096 := by
  have := w.isLt
  rw [category, BitVec.extractLsb'_toNat, Nat.shiftRight_eq_div_pow]
  omega

theorem fieldX_val (w : Word) : (fieldX w).val = w.toNat / 256 % 16 := by
  show (nibbleX w).toNat = _
  rw [nibbleX, BitVec.extractLsb'_toNat, Nat.shiftRight_eq_div_pow]

theorem fieldY_val (w : Word) : (fieldY w).val = w.toNat / 16 % 16 := by
  show (nibbleY w).toNat = _
  rw [nibbleY, BitVec.extractLsb'_toNat, Nat.shiftRight_eq_div_pow]

theorem fieldN_toNat (w : Word) : (fieldN w).toNat = w.toNat % 16 := by
  rw [fieldN, BitVec.extractLsb'_toNat, Nat.shiftRight_zero]

theorem fieldKK_toNat (w : Word) : (fieldKK w).toNat = w.toNat % 256 := by
  rw [fieldKK, BitVec.extractLsb'_toNat, Nat.shiftRight_zero]

theorem fieldNNN_toNat (w : Word) : (fieldNNN w).toNat = w.toNat % 4096 := by
  rw [fieldNNN, BitVec.extractLsb'_toNat, Nat.shiftRight_zero]

theorem wordA_toNat (c : Nibble) (a : Addr) : (wordA c a).toNat = c.toNat * 4096 + a.toNat := by
  have hc := congrArg BitVec.toNat (category_wordA c a)
  have ha := congrArg BitVec.toNat (fieldNNN_wordA c a)
  rw [category_toNat] at hc
  rw [fieldNNN_toNat] at ha
  omega

theorem wordXK_toNat (c : Nibble) (x : Reg) (kk : Byte) :
    (wordXK c x kk).toNat = c.toNat * 4096 + x.val * 256 + kk.toNat := by
  have hc := congrArg BitVec.toNat (category_wordXK c x kk)
  have hx := congrArg Fin.val (fieldX_wordXK c x kk)
  have hk := congrArg BitVec.toNat (fieldKK_wordXK c x kk)
  rw [category_toNat] at hc
  rw [fieldX_val] at hx
  rw [fieldKK_toNat] at hk
  omega

theorem wordXY_toNat (c : Nibble) (x y : Reg) (n : Nibble) :
    (wordXY c x y n).toNat = c.toNat * 4096 + x.val * 256 + y.val * 16 + n.toNat := by
  have hc := congrArg BitVec.toNat (category_wordXY c x y n)
  have hx := congrArg Fin.val (fieldX_wordXY c x y n)
  have hy := congrArg Fin.val (fieldY_wordXY c x y n)
  have hn := congrArg BitVec.toNat (fieldN_wordXY c x y n)
  rw [category_toNat] at hc
  rw [fieldX_val] at hx
  rw [fieldY_val] at hy
  rw [fieldN_toNat] at hn
  omega

theorem wordA_eq_ofNat (c : Nibble) (a : Addr) : wordA c a = BitVec.ofNat 16 (c.toNat * 4096 + a.toNat) := by
  apply BitVec.eq_of_toNat_eq
  have := (wordA c a).isLt
  rw [BitVec.toNat_ofNat, ← wordA_toNat, Nat.mod_eq_of_lt this]

theorem wordXK_eq_ofNat (c : Nibble) (x : Reg) (kk : Byte) :
    wordXK c x kk = BitVec.ofNat 16 (c.toNat * 4096 + x.val * 256 + kk.toNat) := by
  apply BitVec.eq_of_toNat_eq
  have := (wordXK c x kk).isLt
  rw [BitVec.toNat_ofNat, ← wordXK_toNat, Nat.mod_eq_of_lt this]

theorem wordXY_eq_ofNat (c : Nibble) (x y : Reg) (n : Nibble) :
    wordXY c x y n = BitVec.ofNat 16 (c.toNat * 4096 + x.val * 256 + y.val * 16 + n.toNat) := by
  apply BitVec.eq_of_toNat_eq
  have := (wordXY c x y n).isLt
  rw [BitVec.toNat_ofNat, ← wordXY_toNat, Nat.mod_eq_of_lt this]

/-! ### Rows of the opcode table, field by field -/

theorem covers_category (c : Nibble) (w : Word) :
    OpcodeRow.covers ⟨c.setWidth 16 <<< 12, 0xF000⟩ w = decide (category w = c) := by
  have h : w &&& (0xF000 : Word) = (category w).setWidth 16 <<< 12 := by
    apply BitVec.eq_of_getLsbD_eq; intro i hi
    interval_cases i <;> simp [category]
  simp only [OpcodeRow.covers, h, beq_eq_decide, decide_eq_decide]
  constructor
  · intro e
    have := congrArg category e
    have hc : ∀ d : Nibble, category (d.setWidth 16 <<< 12) = d := by decide +kernel
    rwa [hc, hc] at this
  · rintro rfl; rfl

theorem covers_nibble (c n : Nibble) (w : Word) :
    OpcodeRow.covers ⟨c.setWidth 16 <<< 12 ||| n.setWidth 16, 0xF00F⟩ w =
      decide (category w = c ∧ fieldN w = n) := by
  have h : w &&& (0xF00F : Word) = (category w).setWidth 16 <<< 12 ||| (fieldN w).setWidth 16 := by
    apply BitVec.eq_of_getLsbD_eq; intro i hi
    interval_cases i <;> simp [category, fieldN]
  have hc : ∀ c n : Nibble, category (c.setWidth 16 <<< 12 ||| n.setWidth 16) = c ∧
      fieldN (c.setWidth 16 <<< 12 ||| n.setWidth 16) = n := by decide +kernel
  simp only [OpcodeRow.covers, h, beq_eq_decide, decide_eq_decide]
  constructor
  · intro e
    have h1 := congrArg category e
    have h2 := congrArg fieldN e
    rw [(hc _ _).1, (hc _ _).1] at h1
    rw [(hc _ _).2, (hc _ _).2] at h2
    exact ⟨h1, h2⟩
  · rintro ⟨rfl, rfl⟩; rfl

theorem covers_byte (c : Nibble) (kk : Byte) (w : Word) :
    OpcodeRow.covers ⟨c.setWidth 16 <<< 12 ||| kk.setWidth 16, 0xF0FF⟩ w =
      decide (category w = c ∧ fieldKK w = kk) := by
  have h : w &&& (0xF0FF : Word) = (category w).setWidth 16 <<< 12 ||| (fieldKK w).setWidth 16 := by
    apply BitVec.eq_of_getLsbD_eq; intro i hi
    interval_cases i <;> simp [category, fieldKK]
  have hc : ∀ (c : Nibble) (kk : Byte), category (c.setWidth 16 <<< 12 ||| kk.setWidth 16) = c ∧
      fieldKK (c.setWidth 16 <<< 12 ||| kk.setWidth 16) = kk := by decide +kernel
  simp only [OpcodeRow.covers, h, beq_eq_decide, decide_eq_decide]
  constructor
  · intro e
    have h1 := congrArg category e
    have h2 := congrArg fieldKK e
    rw [(hc _ _).1, (hc _ _).1] at h1
    rw [(hc _ _).2, (hc _ _).2] at h2
    exact ⟨h1, h2⟩
  · rintro ⟨rfl, rfl⟩; rfl

/-- A rejected word is rejected by its own name. -/
theorem decode_error {w : Word} {e : DecodeError} (h : decode w = .error e) : e = .unknownInstruction w := by
  unfold decode decodeZ decodeSeReg decodeXY decodeSneReg decodeKeys decodeX at h
  dsimp only at h
  split at h <;> (repeat' split at h) <;> simp_all

end Sys2Proof
end

