-- ==== Sys2Proof/Laws/State.lean ====
section
/-! SUPPORT. One lemma per field per update of the state, each true by rfl, so that no proof unfolds a record update. -/

namespace Sys2Proof.Machine

@[simp] theorem writeV_v (s : State) (x : Reg) (b : Byte) : (writeV s x b).v = s.v.set x b := rfl
@[simp] theorem writeV_i (s : State) (x : Reg) (b : Byte) : (writeV s x b).i = s.i := rfl
@[simp] theorem writeV_pc (s : State) (x : Reg) (b : Byte) : (writeV s x b).pc = s.pc := rfl
@[simp] theorem writeV_stack (s : State) (x : Reg) (b : Byte) : (writeV s x b).stack = s.stack := rfl
@[simp] theorem writeV_depth (s : State) (x : Reg) (b : Byte) : (writeV s x b).depth = s.depth := rfl
@[simp] theorem writeV_dt (s : State) (x : Reg) (b : Byte) : (writeV s x b).dt = s.dt := rfl
@[simp] theorem writeV_st (s : State) (x : Reg) (b : Byte) : (writeV s x b).st = s.st := rfl
@[simp] theorem writeV_mem (s : State) (x : Reg) (b : Byte) : (writeV s x b).mem = s.mem := rfl
@[simp] theorem writeV_fb (s : State) (x : Reg) (b : Byte) : (writeV s x b).fb = s.fb := rfl
@[simp] theorem writeV_dirty (s : State) (x : Reg) (b : Byte) : (writeV s x b).dirty = s.dirty := rfl
@[simp] theorem writeV_key (s : State) (x : Reg) (b : Byte) : (writeV s x b).key = s.key := rfl
@[simp] theorem writeV_status (s : State) (x : Reg) (b : Byte) : (writeV s x b).status = s.status := rfl
@[simp] theorem writeV_presented (s : State) (x : Reg) (b : Byte) : (writeV s x b).presented = s.presented := rfl
@[simp] theorem writeV_loadResult (s : State) (x : Reg) (b : Byte) : (writeV s x b).loadResult = s.loadResult := rfl
@[simp] theorem writeV_hostEvents (s : State) (x : Reg) (b : Byte) : (writeV s x b).hostEvents = s.hostEvents := rfl
@[simp] theorem writeV_hostCount (s : State) (x : Reg) (b : Byte) : (writeV s x b).hostCount = s.hostCount := rfl
@[simp] theorem writeV_draw (s : State) (x : Reg) (b : Byte) : (writeV s x b).draw = s.draw := rfl
@[simp] theorem writeV_drawCount (s : State) (x : Reg) (b : Byte) : (writeV s x b).drawCount = s.drawCount := rfl

@[simp] theorem setPc_v (s : State) (t : Word) : (setPc s t).v = s.v := rfl
@[simp] theorem setPc_i (s : State) (t : Word) : (setPc s t).i = s.i := rfl
@[simp] theorem setPc_pc (s : State) (t : Word) : (setPc s t).pc = t &&& Config.addrMask := rfl
@[simp] theorem setPc_stack (s : State) (t : Word) : (setPc s t).stack = s.stack := rfl
@[simp] theorem setPc_depth (s : State) (t : Word) : (setPc s t).depth = s.depth := rfl
@[simp] theorem setPc_dt (s : State) (t : Word) : (setPc s t).dt = s.dt := rfl
@[simp] theorem setPc_st (s : State) (t : Word) : (setPc s t).st = s.st := rfl
@[simp] theorem setPc_mem (s : State) (t : Word) : (setPc s t).mem = s.mem := rfl
@[simp] theorem setPc_fb (s : State) (t : Word) : (setPc s t).fb = s.fb := rfl
@[simp] theorem setPc_dirty (s : State) (t : Word) : (setPc s t).dirty = s.dirty := rfl
@[simp] theorem setPc_key (s : State) (t : Word) : (setPc s t).key = s.key := rfl
@[simp] theorem setPc_status (s : State) (t : Word) : (setPc s t).status = s.status := rfl
@[simp] theorem setPc_presented (s : State) (t : Word) : (setPc s t).presented = s.presented := rfl
@[simp] theorem setPc_loadResult (s : State) (t : Word) : (setPc s t).loadResult = s.loadResult := rfl
@[simp] theorem setPc_hostEvents (s : State) (t : Word) : (setPc s t).hostEvents = s.hostEvents := rfl
@[simp] theorem setPc_hostCount (s : State) (t : Word) : (setPc s t).hostCount = s.hostCount := rfl
@[simp] theorem setPc_draw (s : State) (t : Word) : (setPc s t).draw = s.draw := rfl
@[simp] theorem setPc_drawCount (s : State) (t : Word) : (setPc s t).drawCount = s.drawCount := rfl

@[simp] theorem setI_v (s : State) (a : Word) : (setI s a).v = s.v := rfl
@[simp] theorem setI_i (s : State) (a : Word) : (setI s a).i = a := rfl
@[simp] theorem setI_pc (s : State) (a : Word) : (setI s a).pc = s.pc := rfl
@[simp] theorem setI_stack (s : State) (a : Word) : (setI s a).stack = s.stack := rfl
@[simp] theorem setI_depth (s : State) (a : Word) : (setI s a).depth = s.depth := rfl
@[simp] theorem setI_dt (s : State) (a : Word) : (setI s a).dt = s.dt := rfl
@[simp] theorem setI_st (s : State) (a : Word) : (setI s a).st = s.st := rfl
@[simp] theorem setI_mem (s : State) (a : Word) : (setI s a).mem = s.mem := rfl
@[simp] theorem setI_fb (s : State) (a : Word) : (setI s a).fb = s.fb := rfl
@[simp] theorem setI_dirty (s : State) (a : Word) : (setI s a).dirty = s.dirty := rfl
@[simp] theorem setI_key (s : State) (a : Word) : (setI s a).key = s.key := rfl
@[simp] theorem setI_status (s : State) (a : Word) : (setI s a).status = s.status := rfl
@[simp] theorem setI_presented (s : State) (a : Word) : (setI s a).presented = s.presented := rfl
@[simp] theorem setI_loadResult (s : State) (a : Word) : (setI s a).loadResult = s.loadResult := rfl
@[simp] theorem setI_hostEvents (s : State) (a : Word) : (setI s a).hostEvents = s.hostEvents := rfl
@[simp] theorem setI_hostCount (s : State) (a : Word) : (setI s a).hostCount = s.hostCount := rfl
@[simp] theorem setI_draw (s : State) (a : Word) : (setI s a).draw = s.draw := rfl
@[simp] theorem setI_drawCount (s : State) (a : Word) : (setI s a).drawCount = s.drawCount := rfl

@[simp] theorem setDT_v (s : State) (b : Byte) : (setDT s b).v = s.v := rfl
@[simp] theorem setDT_i (s : State) (b : Byte) : (setDT s b).i = s.i := rfl
@[simp] theorem setDT_pc (s : State) (b : Byte) : (setDT s b).pc = s.pc := rfl
@[simp] theorem setDT_stack (s : State) (b : Byte) : (setDT s b).stack = s.stack := rfl
@[simp] theorem setDT_depth (s : State) (b : Byte) : (setDT s b).depth = s.depth := rfl
@[simp] theorem setDT_dt (s : State) (b : Byte) : (setDT s b).dt = b := rfl
@[simp] theorem setDT_st (s : State) (b : Byte) : (setDT s b).st = s.st := rfl
@[simp] theorem setDT_mem (s : State) (b : Byte) : (setDT s b).mem = s.mem := rfl
@[simp] theorem setDT_fb (s : State) (b : Byte) : (setDT s b).fb = s.fb := rfl
@[simp] theorem setDT_dirty (s : State) (b : Byte) : (setDT s b).dirty = s.dirty := rfl
@[simp] theorem setDT_key (s : State) (b : Byte) : (setDT s b).key = s.key := rfl
@[simp] theorem setDT_status (s : State) (b : Byte) : (setDT s b).status = s.status := rfl
@[simp] theorem setDT_presented (s : State) (b : Byte) : (setDT s b).presented = s.presented := rfl
@[simp] theorem setDT_loadResult (s : State) (b : Byte) : (setDT s b).loadResult = s.loadResult := rfl
@[simp] theorem setDT_hostEvents (s : State) (b : Byte) : (setDT s b).hostEvents = s.hostEvents := rfl
@[simp] theorem setDT_hostCount (s : State) (b : Byte) : (setDT s b).hostCount = s.hostCount := rfl
@[simp] theorem setDT_draw (s : State) (b : Byte) : (setDT s b).draw = s.draw := rfl
@[simp] theorem setDT_drawCount (s : State) (b : Byte) : (setDT s b).drawCount = s.drawCount := rfl

@[simp] theorem setST_v (s : State) (b : Byte) : (setST s b).v = s.v := rfl
@[simp] theorem setST_i (s : State) (b : Byte) : (setST s b).i = s.i := rfl
@[simp] theorem setST_pc (s : State) (b : Byte) : (setST s b).pc = s.pc := rfl
@[simp] theorem setST_stack (s : State) (b : Byte) : (setST s b).stack = s.stack := rfl
@[simp] theorem setST_depth (s : State) (b : Byte) : (setST s b).depth = s.depth := rfl
@[simp] theorem setST_dt (s : State) (b : Byte) : (setST s b).dt = s.dt := rfl
@[simp] theorem setST_st (s : State) (b : Byte) : (setST s b).st = b := rfl
@[simp] theorem setST_mem (s : State) (b : Byte) : (setST s b).mem = s.mem := rfl
@[simp] theorem setST_fb (s : State) (b : Byte) : (setST s b).fb = s.fb := rfl
@[simp] theorem setST_dirty (s : State) (b : Byte) : (setST s b).dirty = s.dirty := rfl
@[simp] theorem setST_key (s : State) (b : Byte) : (setST s b).key = s.key := rfl
@[simp] theorem setST_status (s : State) (b : Byte) : (setST s b).status = s.status := rfl
@[simp] theorem setST_presented (s : State) (b : Byte) : (setST s b).presented = s.presented := rfl
@[simp] theorem setST_loadResult (s : State) (b : Byte) : (setST s b).loadResult = s.loadResult := rfl
@[simp] theorem setST_hostEvents (s : State) (b : Byte) : (setST s b).hostEvents = s.hostEvents := rfl
@[simp] theorem setST_hostCount (s : State) (b : Byte) : (setST s b).hostCount = s.hostCount := rfl
@[simp] theorem setST_draw (s : State) (b : Byte) : (setST s b).draw = s.draw := rfl
@[simp] theorem setST_drawCount (s : State) (b : Byte) : (setST s b).drawCount = s.drawCount := rfl

@[simp] theorem setStatus_v (s : State) (t : Status) : (setStatus s t).v = s.v := rfl
@[simp] theorem setStatus_i (s : State) (t : Status) : (setStatus s t).i = s.i := rfl
@[simp] theorem setStatus_pc (s : State) (t : Status) : (setStatus s t).pc = s.pc := rfl
@[simp] theorem setStatus_stack (s : State) (t : Status) : (setStatus s t).stack = s.stack := rfl
@[simp] theorem setStatus_depth (s : State) (t : Status) : (setStatus s t).depth = s.depth := rfl
@[simp] theorem setStatus_dt (s : State) (t : Status) : (setStatus s t).dt = s.dt := rfl
@[simp] theorem setStatus_st (s : State) (t : Status) : (setStatus s t).st = s.st := rfl
@[simp] theorem setStatus_mem (s : State) (t : Status) : (setStatus s t).mem = s.mem := rfl
@[simp] theorem setStatus_fb (s : State) (t : Status) : (setStatus s t).fb = s.fb := rfl
@[simp] theorem setStatus_dirty (s : State) (t : Status) : (setStatus s t).dirty = s.dirty := rfl
@[simp] theorem setStatus_key (s : State) (t : Status) : (setStatus s t).key = s.key := rfl
@[simp] theorem setStatus_status (s : State) (t : Status) : (setStatus s t).status = t := rfl
@[simp] theorem setStatus_presented (s : State) (t : Status) : (setStatus s t).presented = s.presented := rfl
@[simp] theorem setStatus_loadResult (s : State) (t : Status) : (setStatus s t).loadResult = s.loadResult := rfl
@[simp] theorem setStatus_hostEvents (s : State) (t : Status) : (setStatus s t).hostEvents = s.hostEvents := rfl
@[simp] theorem setStatus_hostCount (s : State) (t : Status) : (setStatus s t).hostCount = s.hostCount := rfl
@[simp] theorem setStatus_draw (s : State) (t : Status) : (setStatus s t).draw = s.draw := rfl
@[simp] theorem setStatus_drawCount (s : State) (t : Status) : (setStatus s t).drawCount = s.drawCount := rfl

@[simp] theorem memWrite_v (s : State) (a : Word) (b : Byte) : (memWrite s a b).v = s.v := rfl
@[simp] theorem memWrite_i (s : State) (a : Word) (b : Byte) : (memWrite s a b).i = s.i := rfl
@[simp] theorem memWrite_pc (s : State) (a : Word) (b : Byte) : (memWrite s a b).pc = s.pc := rfl
@[simp] theorem memWrite_stack (s : State) (a : Word) (b : Byte) : (memWrite s a b).stack = s.stack := rfl
@[simp] theorem memWrite_depth (s : State) (a : Word) (b : Byte) : (memWrite s a b).depth = s.depth := rfl
@[simp] theorem memWrite_dt (s : State) (a : Word) (b : Byte) : (memWrite s a b).dt = s.dt := rfl
@[simp] theorem memWrite_st (s : State) (a : Word) (b : Byte) : (memWrite s a b).st = s.st := rfl
@[simp] theorem memWrite_mem (s : State) (a : Word) (b : Byte) : (memWrite s a b).mem = Memory.write s.mem (memIndex a) b := rfl
@[simp] theorem memWrite_fb (s : State) (a : Word) (b : Byte) : (memWrite s a b).fb = s.fb := rfl
@[simp] theorem memWrite_dirty (s : State) (a : Word) (b : Byte) : (memWrite s a b).dirty = s.dirty := rfl
@[simp] theorem memWrite_key (s : State) (a : Word) (b : Byte) : (memWrite s a b).key = s.key := rfl
@[simp] theorem memWrite_status (s : State) (a : Word) (b : Byte) : (memWrite s a b).status = s.status := rfl
@[simp] theorem memWrite_presented (s : State) (a : Word) (b : Byte) : (memWrite s a b).presented = s.presented := rfl
@[simp] theorem memWrite_loadResult (s : State) (a : Word) (b : Byte) : (memWrite s a b).loadResult = s.loadResult := rfl
@[simp] theorem memWrite_hostEvents (s : State) (a : Word) (b : Byte) : (memWrite s a b).hostEvents = s.hostEvents := rfl
@[simp] theorem memWrite_hostCount (s : State) (a : Word) (b : Byte) : (memWrite s a b).hostCount = s.hostCount := rfl
@[simp] theorem memWrite_draw (s : State) (a : Word) (b : Byte) : (memWrite s a b).draw = s.draw := rfl
@[simp] theorem memWrite_drawCount (s : State) (a : Word) (b : Byte) : (memWrite s a b).drawCount = s.drawCount := rfl

@[simp] theorem setFb_v (s : State) (f : Framebuffer) : (setFb s f).v = s.v := rfl
@[simp] theorem setFb_i (s : State) (f : Framebuffer) : (setFb s f).i = s.i := rfl
@[simp] theorem setFb_pc (s : State) (f : Framebuffer) : (setFb s f).pc = s.pc := rfl
@[simp] theorem setFb_stack (s : State) (f : Framebuffer) : (setFb s f).stack = s.stack := rfl
@[simp] theorem setFb_depth (s : State) (f : Framebuffer) : (setFb s f).depth = s.depth := rfl
@[simp] theorem setFb_dt (s : State) (f : Framebuffer) : (setFb s f).dt = s.dt := rfl
@[simp] theorem setFb_st (s : State) (f : Framebuffer) : (setFb s f).st = s.st := rfl
@[simp] theorem setFb_mem (s : State) (f : Framebuffer) : (setFb s f).mem = s.mem := rfl
@[simp] theorem setFb_fb (s : State) (f : Framebuffer) : (setFb s f).fb = f := rfl
@[simp] theorem setFb_dirty (s : State) (f : Framebuffer) : (setFb s f).dirty = true := rfl
@[simp] theorem setFb_key (s : State) (f : Framebuffer) : (setFb s f).key = s.key := rfl
@[simp] theorem setFb_status (s : State) (f : Framebuffer) : (setFb s f).status = s.status := rfl
@[simp] theorem setFb_presented (s : State) (f : Framebuffer) : (setFb s f).presented = s.presented := rfl
@[simp] theorem setFb_loadResult (s : State) (f : Framebuffer) : (setFb s f).loadResult = s.loadResult := rfl
@[simp] theorem setFb_hostEvents (s : State) (f : Framebuffer) : (setFb s f).hostEvents = s.hostEvents := rfl
@[simp] theorem setFb_hostCount (s : State) (f : Framebuffer) : (setFb s f).hostCount = s.hostCount := rfl
@[simp] theorem setFb_draw (s : State) (f : Framebuffer) : (setFb s f).draw = s.draw := rfl
@[simp] theorem setFb_drawCount (s : State) (f : Framebuffer) : (setFb s f).drawCount = s.drawCount := rfl

@[simp] theorem setLoadResult_v (s : State) (r : LoadResult) : (setLoadResult s r).v = s.v := rfl
@[simp] theorem setLoadResult_i (s : State) (r : LoadResult) : (setLoadResult s r).i = s.i := rfl
@[simp] theorem setLoadResult_pc (s : State) (r : LoadResult) : (setLoadResult s r).pc = s.pc := rfl
@[simp] theorem setLoadResult_stack (s : State) (r : LoadResult) : (setLoadResult s r).stack = s.stack := rfl
@[simp] theorem setLoadResult_depth (s : State) (r : LoadResult) : (setLoadResult s r).depth = s.depth := rfl
@[simp] theorem setLoadResult_dt (s : State) (r : LoadResult) : (setLoadResult s r).dt = s.dt := rfl
@[simp] theorem setLoadResult_st (s : State) (r : LoadResult) : (setLoadResult s r).st = s.st := rfl
@[simp] theorem setLoadResult_mem (s : State) (r : LoadResult) : (setLoadResult s r).mem = s.mem := rfl
@[simp] theorem setLoadResult_fb (s : State) (r : LoadResult) : (setLoadResult s r).fb = s.fb := rfl
@[simp] theorem setLoadResult_dirty (s : State) (r : LoadResult) : (setLoadResult s r).dirty = s.dirty := rfl
@[simp] theorem setLoadResult_key (s : State) (r : LoadResult) : (setLoadResult s r).key = s.key := rfl
@[simp] theorem setLoadResult_status (s : State) (r : LoadResult) : (setLoadResult s r).status = s.status := rfl
@[simp] theorem setLoadResult_presented (s : State) (r : LoadResult) : (setLoadResult s r).presented = s.presented := rfl
@[simp] theorem setLoadResult_loadResult (s : State) (r : LoadResult) : (setLoadResult s r).loadResult = some r := rfl
@[simp] theorem setLoadResult_hostEvents (s : State) (r : LoadResult) : (setLoadResult s r).hostEvents = s.hostEvents := rfl
@[simp] theorem setLoadResult_hostCount (s : State) (r : LoadResult) : (setLoadResult s r).hostCount = s.hostCount := rfl
@[simp] theorem setLoadResult_draw (s : State) (r : LoadResult) : (setLoadResult s r).draw = s.draw := rfl
@[simp] theorem setLoadResult_drawCount (s : State) (r : LoadResult) : (setLoadResult s r).drawCount = s.drawCount := rfl

end Sys2Proof.Machine
end

