-- ==== Sys2Proof/Laws/Memory.lean ====
section
/-! SUPPORT. The laws of memory: a read after a write, the canonical form, and what lists of writes and reads do. -/

namespace Sys2Proof.Machine

/-! ### Lists of cells -/

theorem Memory.read_erase_same (m : Memory) (a : Nat) : Memory.read (Memory.erase m a) a = resetByte a := by
  induction m with
  | nil => rfl
  | cons c m ih =>
    obtain ⟨b, u⟩ := c
    by_cases h : b = a
    · simpa [Memory.erase, h] using ih
    · simpa [Memory.erase, Memory.read, h, Ne.symm h] using ih

theorem Memory.read_erase_other (m : Memory) {a c : Nat} (hne : c ≠ a) :
    Memory.read (Memory.erase m a) c = Memory.read m c := by
  induction m with
  | nil => rfl
  | cons e m ih =>
    obtain ⟨b, u⟩ := e
    by_cases h : b = a
    · subst h
      simpa [Memory.erase, Memory.read, hne] using ih
    · by_cases hc : c = b
      · simp [Memory.erase, Memory.read, h, hc]
      · simpa [Memory.erase, Memory.read, h, hc] using ih

theorem Memory.read_insert_other (m : Memory) {a c : Nat} (u : Byte) (hne : c ≠ a) :
    Memory.read (Memory.insert m a u) c = Memory.read m c := by
  induction m with
  | nil => simp [Memory.insert, Memory.read, hne]
  | cons e m ih =>
    obtain ⟨b, w⟩ := e
    by_cases h : a < b
    · simp [Memory.insert, Memory.read, h, hne]
    · by_cases hc : c = b
      · simp [Memory.insert, Memory.read, h, hc]
      · simpa [Memory.insert, Memory.read, h, hc] using ih

theorem Memory.read_insert_erase (m : Memory) (a : Nat) (u : Byte) :
    Memory.read (Memory.insert (Memory.erase m a) a u) a = u := by
  induction m with
  | nil => simp [Memory.erase, Memory.insert, Memory.read]
  | cons e m ih =>
    obtain ⟨b, w⟩ := e
    by_cases hb : b = a
    · simpa [Memory.erase, hb] using ih
    · by_cases h : a < b
      · simp [Memory.erase, Memory.insert, Memory.read, h, hb]
      · simpa [Memory.erase, Memory.insert, Memory.read, h, hb, Ne.symm hb] using ih

/-- A byte read back is the byte last written (R56). -/
theorem Memory.read_write_same (m : Memory) (a : Nat) (u : Byte) : Memory.read (Memory.write m a u) a = u := by
  unfold Memory.write
  split
  · next h => rw [Memory.read_erase_same, h]
  · exact Memory.read_insert_erase m a u

/-- A write leaves every other address alone. -/
theorem Memory.read_write_other (m : Memory) {a c : Nat} (u : Byte) (hne : c ≠ a) :
    Memory.read (Memory.write m a u) c = Memory.read m c := by
  unfold Memory.write
  split
  · exact Memory.read_erase_other m hne
  · rw [Memory.read_insert_other _ _ hne, Memory.read_erase_other m hne]

/-! ### The canonical form -/

theorem Memory.wfFrom_mono {m : Memory} {lo lo' : Nat} (hle : lo ≤ lo') (h : Memory.wfFrom lo' m = true) :
    Memory.wfFrom lo m = true := by
  cases m with
  | nil => rfl
  | cons c m =>
    obtain ⟨b, u⟩ := c
    simp only [Memory.wfFrom, Bool.and_eq_true, decide_eq_true_eq] at h ⊢
    exact ⟨⟨⟨Nat.le_trans hle h.1.1.1, h.1.1.2⟩, h.1.2⟩, h.2⟩

/-- Below the first address a canonical list may hold, it reads as reset content. -/
theorem Memory.read_below {m : Memory} {lo a : Nat} (h : Memory.wfFrom lo m = true) (ha : a < lo) :
    Memory.read m a = resetByte a := by
  induction m generalizing lo with
  | nil => rfl
  | cons c m ih =>
    obtain ⟨b, u⟩ := c
    simp only [Memory.wfFrom, Bool.and_eq_true, decide_eq_true_eq] at h
    have hb : a ≠ b := by omega
    simpa [Memory.read, hb] using ih h.2 (by omega)

theorem Memory.wfFrom_erase {m : Memory} {lo : Nat} (a : Nat) (h : Memory.wfFrom lo m = true) :
    Memory.wfFrom lo (Memory.erase m a) = true := by
  induction m generalizing lo with
  | nil => rfl
  | cons c m ih =>
    obtain ⟨b, u⟩ := c
    simp only [Memory.wfFrom, Bool.and_eq_true, decide_eq_true_eq] at h
    by_cases hb : b = a
    · have := Memory.wfFrom_mono (lo := lo) (by omega) (ih h.2)
      simpa [Memory.erase, hb] using this
    · have := ih h.2
      simp only [Memory.erase] at this
      simp [Memory.erase, hb, Memory.wfFrom, h.1.1.1, h.1.1.2, this]
      simpa using h.1.2

/-- After an erase, no entry is at the erased address. -/
theorem Memory.mem_erase_ne {m : Memory} {a : Nat} {c : Host.Cell} (h : c ∈ Memory.erase m a) : c.1 ≠ a := by
  simpa using (List.mem_filter.mp h).2

theorem Memory.wfFrom_insert {m : Memory} {lo a : Nat} {u : Byte} (h : Memory.wfFrom lo m = true) (hlo : lo ≤ a)
    (ha : a < Config.memSize) (hu : u ≠ resetByte a) (hnot : ∀ c ∈ m, c.1 ≠ a) :
    Memory.wfFrom lo (Memory.insert m a u) = true := by
  induction m generalizing lo with
  | nil => simp [Memory.insert, Memory.wfFrom, hlo, ha, hu]
  | cons c m ih =>
    obtain ⟨b, w⟩ := c
    simp only [Memory.wfFrom, Bool.and_eq_true, decide_eq_true_eq] at h
    by_cases hab : a < b
    · simp [Memory.insert, Memory.wfFrom, hab, hlo, ha, hu, h.1.1.2, h.2, Nat.succ_le_of_lt hab]
      simpa using h.1.2
    · have hne : b ≠ a := hnot (b, w) (by simp)
      have := ih h.2 (by omega) fun c hc => hnot c (by simp [hc])
      simp [Memory.insert, Memory.wfFrom, hab, h.1.1.1, h.1.1.2, this]
      simpa using h.1.2

/-- A write keeps the canonical form. -/
theorem Memory.wf_write {m : Memory} {a : Nat} (u : Byte) (h : m.wf = true) (ha : a < Config.memSize) :
    (Memory.write m a u).wf = true := by
  unfold Memory.write
  split
  · exact Memory.wfFrom_erase a h
  · next hu =>
    exact Memory.wfFrom_insert (Memory.wfFrom_erase a h) (Nat.zero_le _) ha hu fun c hc => Memory.mem_erase_ne hc

/-- Reset memory is in canonical form. -/
theorem Memory.wf_reset : State.reset.mem.wf = true := rfl

/-- Equal contents are equal lists: the canonical form is one list for each content. -/
theorem Memory.eq_of_read_eq {m n : Memory} (hm : m.wf = true) (hn : n.wf = true)
    (h : ∀ a, Memory.read m a = Memory.read n a) : m = n := by
  suffices H : ∀ lo, Memory.wfFrom lo m = true → Memory.wfFrom lo n = true → m = n from H 0 hm hn
  clear hm hn
  induction m generalizing n with
  | nil =>
    intro lo _ hn
    cases n with
    | nil => rfl
    | cons c n =>
      obtain ⟨b, u⟩ := c
      simp only [Memory.wfFrom, Bool.and_eq_true, decide_eq_true_eq, bne_iff_ne] at hn
      exact absurd (by simpa [Memory.read] using (h b).symm) hn.1.2
  | cons c m ih =>
    obtain ⟨b, u⟩ := c
    intro lo hm hn
    simp only [Memory.wfFrom, Bool.and_eq_true, decide_eq_true_eq, bne_iff_ne] at hm
    cases n with
    | nil => exact absurd (by simpa [Memory.read] using h b) hm.1.2
    | cons c n =>
      obtain ⟨b', u'⟩ := c
      simp only [Memory.wfFrom, Bool.and_eq_true, decide_eq_true_eq, bne_iff_ne] at hn
      have hb : b = b' := by
        rcases Nat.lt_trichotomy b b' with hlt | heq | hgt
        · have := h b
          rw [Memory.read, if_pos rfl, Memory.read, if_neg (by omega),
            Memory.read_below hn.2 (by omega)] at this
          exact absurd this hm.1.2
        · exact heq
        · have := h b'
          rw [Memory.read, if_neg (by omega), Memory.read_below hm.2 (by omega), Memory.read, if_pos rfl] at this
          exact absurd this.symm hn.1.2
      subst hb
      have hu : u = u' := by simpa [Memory.read] using h b
      subst hu
      have hmn : m = n := by
        refine ih (fun a => ?_) (b + 1) hm.2 hn.2
        by_cases hab : a = b
        · subst hab
          rw [Memory.read_below hm.2 (by omega), Memory.read_below hn.2 (by omega)]
        · simpa [Memory.read, hab] using h a
      rw [hmn]

/-! ### Addresses and single bytes -/

/-- Masking to 12 bits is the remainder by 4096 (R24, R50). -/
theorem mask_toNat (a : Word) : (a &&& Config.addrMask).toNat = a.toNat % 4096 := by
  have h : Config.addrMask.toNat = 2 ^ 12 - 1 := by decide
  rw [BitVec.toNat_and, h, Nat.and_two_pow_sub_one_eq_mod]

theorem memIndex_eq (a : Word) : memIndex a = a.toNat % 4096 := mask_toNat a

theorem memIndex_lt (a : Word) : memIndex a < Config.memSize := by
  rw [memIndex_eq]
  exact Nat.mod_lt _ (by decide)

/-- The byte `k` places on from `a` is at index `(a + k) mod 4096` (R55). -/
theorem memIndex_add (a : Word) (k : Nat) : memIndex (a + BitVec.ofNat 16 k) = (a.toNat + k) % 4096 := by
  rw [memIndex_eq, BitVec.toNat_add, BitVec.toNat_ofNat]
  omega

/-- A read depends on the address's index alone. -/
theorem memRead_congr (s : State) {a c : Word} (h : memIndex a = memIndex c) : memRead s a = memRead s c := by
  simp [memRead, h]

@[simp] theorem memRead_memWrite_same (s : State) (a : Word) (b : Byte) : memRead (memWrite s a b) a = b :=
  Memory.read_write_same _ _ _

theorem memRead_memWrite_of_index (s : State) {a c : Word} (b : Byte) (h : memIndex c = memIndex a) :
    memRead (memWrite s a b) c = b := by
  rw [memRead_congr _ h, memRead_memWrite_same]

theorem memRead_memWrite_other (s : State) {a c : Word} (b : Byte) (h : memIndex c ≠ memIndex a) :
    memRead (memWrite s a b) c = memRead s c :=
  Memory.read_write_other _ _ h

/-- A state's memory is what its reads see: an update of another field changes no read. -/
theorem memRead_of_mem_eq {s t : State} (h : t.mem = s.mem) (a : Word) : memRead t a = memRead s a := by
  simp [memRead, h]

@[simp] theorem memRead_writeV (s : State) (x : Reg) (b : Byte) (a : Word) :
    memRead (writeV s x b) a = memRead s a := rfl

@[simp] theorem memRead_setPc (s : State) (t : Word) (a : Word) : memRead (setPc s t) a = memRead s a := rfl

@[simp] theorem memRead_setI (s : State) (t : Word) (a : Word) : memRead (setI s t) a = memRead s a := rfl

@[simp] theorem memRead_setDT (s : State) (b : Byte) (a : Word) : memRead (setDT s b) a = memRead s a := rfl

@[simp] theorem memRead_setST (s : State) (b : Byte) (a : Word) : memRead (setST s b) a = memRead s a := rfl

@[simp] theorem memRead_setStatus (s : State) (t : Status) (a : Word) :
    memRead (setStatus s t) a = memRead s a := rfl

@[simp] theorem memRead_setFb (s : State) (f : Framebuffer) (a : Word) : memRead (setFb s f) a = memRead s a := rfl

theorem memWrite_wf {s : State} (a : Word) (b : Byte) (h : s.mem.wf = true) : (memWrite s a b).mem.wf = true :=
  Memory.wf_write b h (memIndex_lt a)

/-! ### Lists of writes and reads -/

/-- A list of writes changes memory only. -/
theorem memWriteList_frame (s : State) (a : Word) (bs : List Byte) :
    memWriteList s a bs = { s with mem := (memWriteList s a bs).mem } := by
  induction bs generalizing s a with
  | nil => rfl
  | cons b bs ih => rw [memWriteList, ih]; rfl

/-- What a list of writes leaves in memory depends on memory alone. -/
theorem memWriteList_mem_congr {s t : State} (a : Word) (bs : List Byte) (h : s.mem = t.mem) :
    (memWriteList s a bs).mem = (memWriteList t a bs).mem := by
  induction bs generalizing s t a with
  | nil => exact h
  | cons b bs ih => exact ih (a + 1) (by simp [h])

theorem memWriteList_wf {s : State} (a : Word) (bs : List Byte) (h : s.mem.wf = true) :
    (memWriteList s a bs).mem.wf = true := by
  induction bs generalizing s a with
  | nil => exact h
  | cons b bs ih => exact ih (a + 1) (memWrite_wf a b h)

/-- The address one on, and `k` on from it. -/
theorem add_one_add (a : Word) (k : Nat) : a + 1 + BitVec.ofNat 16 k = a + BitVec.ofNat 16 (k + 1) := by
  apply BitVec.eq_of_toNat_eq
  rw [BitVec.toNat_add, BitVec.toNat_add, BitVec.toNat_add, BitVec.toNat_ofNat, BitVec.toNat_ofNat,
    show (1 : Word).toNat = 1 from rfl]
  omega

/-- Addresses outside the written bytes read as before. -/
theorem memRead_memWriteList_other (s : State) (a c : Word) (bs : List Byte)
    (h : ∀ k < bs.length, memIndex c ≠ memIndex (a + BitVec.ofNat 16 k)) :
    memRead (memWriteList s a bs) c = memRead s c := by
  induction bs generalizing s a with
  | nil => rfl
  | cons b bs ih =>
    rw [memWriteList, ih, memRead_memWrite_other]
    · simpa using h 0 (by simp)
    · intro k hk
      rw [add_one_add]
      exact h (k + 1) (by simpa using hk)

/-- A written byte reads back, when the bytes do not run round the whole memory. -/
theorem memRead_memWriteList (s : State) (a c : Word) (bs : List Byte) (k : Nat) (hk : k < bs.length)
    (hlen : bs.length ≤ 4096) (hc : memIndex c = memIndex (a + BitVec.ofNat 16 k)) :
    memRead (memWriteList s a bs) c = bs[k] := by
  induction bs generalizing s a k with
  | nil => simp at hk
  | cons b bs ih =>
    rw [memWriteList]
    cases k with
    | zero =>
      rw [memRead_memWriteList_other]
      · exact memRead_memWrite_of_index _ _ (by simpa using hc)
      · intro j hj
        simp only [List.length_cons] at hlen
        rw [hc, add_one_add, memIndex_add, memIndex_add]
        omega
    | succ k =>
      simp only [List.length_cons] at hk hlen
      rw [ih (memWrite s a b) (a + 1) k (by omega) (by omega) (by rw [add_one_add]; exact hc)]
      rfl

@[simp] theorem memReadList_length (s : State) (a : Word) (n : Nat) : (memReadList s a n).length = n := by
  simp [memReadList]

theorem memReadList_getElem (s : State) (a : Word) (n k : Nat) (h : k < (memReadList s a n).length) :
    (memReadList s a n)[k] = memRead s (a + BitVec.ofNat 16 k) := by
  simp [memReadList]

end Sys2Proof.Machine
end

