-- ==== Sys2Proof/Laws/Ops.lean ====
section
/-! SUPPORT. One law per shared operation over registers, pc, stack, key latch and operands: what it answers, so that no
proof unfolds it. -/

namespace Sys2Proof.Machine

/-! ### Registers -/

@[simp] theorem readV_writeV_same (s : State) (x : Reg) (b : Byte) : readV (writeV s x b) x = b := by
  simp [readV]

theorem readV_writeV (s : State) (x y : Reg) (b : Byte) :
    readV (writeV s x b) y = if y = x then b else readV s y := by
  simp only [readV, writeV_v, Fin.getElem_fin, Vector.getElem_set, Fin.ext_iff, eq_comm]

theorem readV_writeV_other (s : State) {x y : Reg} (b : Byte) (h : y ≠ x) :
    readV (writeV s x b) y = readV s y := by
  rw [readV_writeV, if_neg h]

/-- A state's registers are what its reads see. -/
theorem readV_of_v_eq {s t : State} (h : t.v = s.v) (y : Reg) : readV t y = readV s y := by simp [readV, h]

@[simp] theorem readV_setPc (s : State) (t : Word) (y : Reg) : readV (setPc s t) y = readV s y := rfl

@[simp] theorem readV_setI (s : State) (a : Word) (y : Reg) : readV (setI s a) y = readV s y := rfl

@[simp] theorem readV_setDT (s : State) (b : Byte) (y : Reg) : readV (setDT s b) y = readV s y := rfl

@[simp] theorem readV_setST (s : State) (b : Byte) (y : Reg) : readV (setST s b) y = readV s y := rfl

@[simp] theorem readV_setStatus (s : State) (t : Status) (y : Reg) : readV (setStatus s t) y = readV s y := rfl

@[simp] theorem readV_memWrite (s : State) (a : Word) (b : Byte) (y : Reg) :
    readV (memWrite s a b) y = readV s y := rfl

@[simp] theorem readV_setFb (s : State) (f : Framebuffer) (y : Reg) : readV (setFb s f) y = readV s y := rfl

@[simp] theorem readV_memWriteList (s : State) (a : Word) (bs : List Byte) (y : Reg) :
    readV (memWriteList s a bs) y = readV s y := by
  rw [memWriteList_frame]; rfl

/-! ### Flags -/

@[simp] theorem flagByte_toNat (f : Bool) : (flagByte f).toNat = if f then 1 else 0 := by cases f <;> rfl

/-- A flag writer leaves the flag in VF, the result in any other destination, and every other register alone (R22). -/
theorem readV_writeResultFlag (s : State) (x y : Reg) (r : Byte) (f : Bool) :
    readV (writeResultFlag s x r f) y = if y = regVF then flagByte f else if y = x then r else readV s y := by
  rw [writeResultFlag, writeFlag, readV_writeV, readV_writeV]

/-! ### The program counter -/

/-- A pc write stores its target modulo 4096 (R24). -/
theorem setPc_toNat (s : State) (t : Word) : (setPc s t).pc.toNat = t.toNat % 4096 := mask_toNat t

/-- `advance` is one pc write, 2 on (R108). -/
theorem advance_def (s : State) : advance s = setPc s (s.pc + 2) := rfl

theorem advance_pc (s : State) : (advance s).pc.toNat = (s.pc.toNat + 2) % 4096 := by
  rw [advance_def, setPc_toNat, BitVec.toNat_add, show (2 : Word).toNat = 2 from rfl]
  omega

/-- `skip` is one pc write, 4 on when the condition holds and 2 on when it does not (R108). -/
theorem skip_def (c : Bool) (s : State) : skip c s = setPc s (if c then s.pc + 2 + 2 else s.pc + 2) := by
  cases c <;> rfl

theorem skip_pc (c : Bool) (s : State) :
    (skip c s).pc.toNat = (s.pc.toNat + if c then 4 else 2) % 4096 := by
  rw [skip_def, setPc_toNat]
  cases c <;> simp only [if_true, Bool.false_eq_true, if_false, BitVec.toNat_add, show (2 : Word).toNat = 2 from rfl] <;>
    omega

/-- A skip changes pc only. -/
theorem skip_frame (c : Bool) (s : State) : skip c s = { s with pc := (skip c s).pc } := by
  cases c <;> rfl

/-! ### The call stack -/

/-- Push fails exactly on a full stack. -/
theorem push_none (s : State) (p : Word) : push s p = none ↔ s.depth.val = 16 := by
  have := s.depth.isLt
  unfold push
  split <;> rename_i h <;> simp only [Config.stackDepth] at h <;> simp <;> omega

/-- Push on a stack with room: one slot written, one entry more, nothing else. -/
theorem push_some (s : State) (p : Word) (h : s.depth.val < 16) :
    push s p = some { s with stack := s.stack.set s.depth.val p h, depth := ⟨s.depth.val + 1, Nat.succ_lt_succ h⟩ } :=
  dif_pos h

/-- Pop fails exactly on an empty stack. -/
theorem pop_none (s : State) : pop s = none ↔ s.depth.val = 0 := by
  unfold pop
  split <;> simp_all

/-- Pop on a stack of `k + 1` entries: slot `k`, one entry fewer, nothing else; the slot keeps its content. -/
theorem pop_some (s : State) (k : Fin 16) (h : s.depth.val = k.val + 1) :
    pop s = some (s.stack[k], { s with depth := k.castSucc }) := by
  unfold pop
  rw [dif_neg (by omega)]
  simp only [h, Nat.add_sub_cancel]
  rfl

/-! ### The key latch -/

theorem keyIndex_none (s : State) (x : Reg) : keyIndex s x = none ↔ 15 < (readV s x).toNat := by
  unfold keyIndex
  split <;> simp <;> omega

theorem keyIndex_some (s : State) (x : Reg) (k : Key) : keyIndex s x = some k ↔ (readV s x).toNat = k.val := by
  unfold keyIndex
  split
  · simp [Fin.ext_iff]
  · have := k.isLt
    simp; omega

/-! ### The random draw -/

/-- A draw is the supplied byte or the next free value, and changes nothing but the draw's own fields. -/
theorem drawRand_cases (s : State) :
    (∃ r, s.draw = some r ∧ drawRand s = (r, { s with draw := none })) ∨
      (s.draw = none ∧ drawRand s = (Config.randByte s.drawCount, { s with drawCount := s.drawCount + 1 })) := by
  unfold drawRand
  cases h : s.draw with
  | none => exact .inr ⟨rfl, rfl⟩
  | some r => exact .inl ⟨r, rfl, rfl⟩

theorem drawRand_frame (s : State) :
    (drawRand s).2 = { s with draw := (drawRand s).2.draw, drawCount := (drawRand s).2.drawCount } := by
  rcases drawRand_cases s with ⟨r, _, h⟩ | ⟨_, h⟩ <;> rw [h]

/-! ### Operands -/

@[simp] theorem zextAddr_toNat (a : Addr) : (zextAddr a).toNat = a.toNat := by
  have := a.isLt
  simp only [zextAddr, BitVec.toNat_setWidth]
  omega

@[simp] theorem zextByte_toNat (b : Byte) : (zextByte b).toNat = b.toNat := by
  have := b.isLt
  simp only [zextByte, BitVec.toNat_setWidth]
  omega

/-- Fx1E's new I is the exact sum modulo 4096 (R191). -/
theorem indexSum_toNat (i : Word) (b : Byte) : (indexSum i b).toNat = (i.toNat + b.toNat) % 4096 := by
  rw [indexSum, mask_toNat, BitVec.toNat_add, zextByte_toNat]
  omega

/-- Fx29's address is five times the low nibble (R175). -/
theorem glyphAddress_toNat (b : Byte) : (glyphAddress b).toNat = b.toNat % 16 * 5 := by
  revert b
  decide +kernel

@[simp] theorem registerBlock_length (s : State) (x : Reg) : (registerBlock s x).length = x.val + 1 := by
  simp [registerBlock]

theorem registerBlock_getElem (s : State) (x k : Reg) (h : k.val < (registerBlock s x).length) :
    (registerBlock s x)[k.val] = readV s k := by
  simp [registerBlock]

/-- A block load writes V[k] .. V[k+n-1] only. -/
theorem loadBlock_frame (s : State) (a : Word) (k n : Nat) :
    loadBlock s a k n = { s with v := (loadBlock s a k n).v } := by
  induction n generalizing s a k with
  | zero => rfl
  | succ n ih => rw [loadBlock, ih]; rfl

/-- What a block load leaves in the registers depends on registers and memory alone. -/
theorem loadBlock_v_congr {s t : State} (a : Word) (k n : Nat) (hv : s.v = t.v) (hm : s.mem = t.mem) :
    (loadBlock s a k n).v = (loadBlock t a k n).v := by
  induction n generalizing s t a k with
  | zero => exact hv
  | succ n ih =>
    refine ih (a + 1) (k + 1) ?_ hm
    simp [hv, memRead_of_mem_eq hm]

/-- What a block load leaves in each register: the byte of its place in the block, or what it held (R196). -/
theorem readV_loadBlock (s : State) (a : Word) (k n : Nat) (hkn : k + n ≤ 16) (y : Reg) :
    readV (loadBlock s a k n) y =
      if k ≤ y.val ∧ y.val < k + n then memRead s (a + BitVec.ofNat 16 (y.val - k)) else readV s y := by
  induction n generalizing s a k with
  | zero => rw [loadBlock, if_neg (by omega)]
  | succ n ih =>
    rw [loadBlock, ih _ _ _ (by omega), readV_writeV]
    have hy : (y = Fin.ofNat 16 k) ↔ y.val = k := by
      rw [Fin.ext_iff, Fin.val_ofNat, Nat.mod_eq_of_lt (by omega)]
    by_cases h : k + 1 ≤ y.val ∧ y.val < k + 1 + n
    · rw [if_pos h, if_pos (by omega), add_one_add, memRead_writeV, show y.val - (k + 1) + 1 = y.val - k by omega]
    · rw [if_neg h]
      by_cases hk : y.val = k
      · rw [if_pos (hy.mpr hk), if_pos (by omega), hk, Nat.sub_self, show a + BitVec.ofNat 16 0 = a by simp]
      · rw [if_neg (fun e => hk (hy.mp e)), if_neg (by omega)]

end Sys2Proof.Machine
end

