-- ==== Sys2Proof/Laws/Exec.lean ====
section
/-! SUPPORT. What exec can answer: for the four instructions that can fault, the two cases; and for the two shapes of the
arithmetic instructions, everything the shared operation does. -/

namespace Sys2Proof.Machine

/-- RET underflows on an empty stack, or pops its top entry (R100). -/
theorem exec_ret_cases (s : State) :
    (s.depth.val = 0 ∧ exec .ret s = .next (raiseFault .stackUnderflow (encode .ret) s)) ∨
      ∃ k : Fin 16, s.depth.val = k.val + 1 ∧
        exec .ret s = .next (setPc { s with depth := k.castSucc } (s.stack[k] + Config.insnBytes)) := by
  have := s.depth.isLt
  by_cases h : s.depth.val = 0
  · exact .inl ⟨h, by rw [exec, execRet, (pop_none s).mpr h]⟩
  · refine .inr ⟨⟨s.depth.val - 1, by omega⟩, by simp only; omega, ?_⟩
    rw [exec, execRet, pop_some s ⟨s.depth.val - 1, by omega⟩ (by simp only; omega)]

/-- CALL overflows on a full stack, or pushes and jumps (R102). -/
theorem exec_call_cases (nnn : Addr) (s : State) :
    (s.depth.val = 16 ∧ exec (.call nnn) s = .next (raiseFault .stackOverflow (encode (.call nnn)) s)) ∨
      ∃ h : s.depth.val < 16, exec (.call nnn) s =
        .next (setPc { s with stack := s.stack.set s.depth.val s.pc h,
                              depth := ⟨s.depth.val + 1, Nat.succ_lt_succ h⟩ } (zextAddr nnn)) := by
  have := s.depth.isLt
  by_cases h : s.depth.val = 16
  · exact .inl ⟨h, by rw [exec, execCall, (push_none s s.pc).mpr h]⟩
  · exact .inr ⟨by omega, by rw [exec, execCall, push_some s s.pc (by omega)]⟩

/-- SKP faults on a register above 15, or skips on the latch (R213). -/
theorem exec_skp_cases (x : Reg) (s : State) :
    (15 < (readV s x).toNat ∧ exec (.skp x) s = .next (raiseFault .keyIndexOutOfRange (encode (.skp x)) s)) ∨
      ∃ k : Key, (readV s x).toNat = k.val ∧ exec (.skp x) s = .next (skip (keyPressed s k) s) := by
  by_cases h : 15 < (readV s x).toNat
  · exact .inl ⟨h, by rw [exec, execSkp, (keyIndex_none s x).mpr h]⟩
  · refine .inr ⟨⟨(readV s x).toNat, by omega⟩, rfl, ?_⟩
    rw [exec, execSkp, (keyIndex_some s x ⟨(readV s x).toNat, by omega⟩).mpr rfl]

/-- SKNP faults on a register above 15, or skips on the latch (R214). -/
theorem exec_sknp_cases (x : Reg) (s : State) :
    (15 < (readV s x).toNat ∧ exec (.sknp x) s = .next (raiseFault .keyIndexOutOfRange (encode (.sknp x)) s)) ∨
      ∃ k : Key, (readV s x).toNat = k.val ∧ exec (.sknp x) s = .next (skip (!keyPressed s k) s) := by
  by_cases h : 15 < (readV s x).toNat
  · exact .inl ⟨h, by rw [exec, execSknp, (keyIndex_none s x).mpr h]⟩
  · refine .inr ⟨⟨(readV s x).toNat, by omega⟩, rfl, ?_⟩
    rw [exec, execSknp, (keyIndex_some s x ⟨(readV s x).toNat, by omega⟩).mpr rfl]

/-- Every instruction answers a next state: a fault of the block is a next state too (R231). -/
theorem exec_next (i : Instr) (s : State) : ∃ t, exec i s = .next t := by
  cases i
  case ret => rcases exec_ret_cases s with ⟨_, h⟩ | ⟨_, _, h⟩ <;> exact ⟨_, h⟩
  case call nnn => rcases exec_call_cases nnn s with ⟨_, h⟩ | ⟨_, h⟩ <;> exact ⟨_, h⟩
  case skp x => rcases exec_skp_cases x s with ⟨_, h⟩ | ⟨_, _, h⟩ <;> exact ⟨_, h⟩
  case sknp x => rcases exec_sknp_cases x s with ⟨_, h⟩ | ⟨_, _, h⟩ <;> exact ⟨_, h⟩
  all_goals exact ⟨_, rfl⟩

/-- The shape without a flag: one register, pc 2 on, nothing else. -/
theorem writeAdvance_spec (s : State) (x : Reg) (r : Byte) :
    ∃ t, writeAdvance s x r = .next t ∧ readV t x = r ∧ (∀ y, y ≠ x → readV t y = readV s y) ∧
      t.pc.toNat = (s.pc.toNat + 2) % 4096 ∧ t = { s with v := t.v, pc := t.pc } :=
  ⟨_, rfl, by simp [advance_def], fun y hy => by simp [advance_def, readV_writeV_other _ _ hy],
    by rw [advance_pc, writeV_pc], rfl⟩

/-- The shape with a flag: the flag in VF, the result in any other destination, pc 2 on, nothing else (R22). -/
theorem writeFlagAdvance_spec (s : State) (x : Reg) (r : Byte) (f : Bool) :
    ∃ t, writeFlagAdvance s x r f = .next t ∧
      (∀ y, readV t y = if y = regVF then flagByte f else if y = x then r else readV s y) ∧
      t.pc.toNat = (s.pc.toNat + 2) % 4096 ∧ t = { s with v := t.v, pc := t.pc } :=
  ⟨_, rfl, fun y => by rw [advance_def, readV_setPc, readV_writeResultFlag],
    by rw [advance_pc]; rfl, rfl⟩

end Sys2Proof.Machine
end

