-- ==== Sys2Proof/Laws/PerInstr.lean ====
section
/-! SUPPORT. Statements about every instruction as syntax, one lemma per constructor. Family Encoding: an instruction's
word is of its own row of the opcode table (30_encoding.md R74, R76), and its operands are well-formed (R78, R82). -/

namespace Sys2Proof.Laws.Encoding

/-- The word of `i` is of `i`'s row, and `i` is well-formed. -/
def Statement (i : Instr) : Prop := i.row.covers (encode i) = true ∧ i.wellFormed = true

theorem covers_wordA (c : Nibble) (a : Addr) (p : Word) (h : p = c.setWidth 16 <<< 12) :
    OpcodeRow.covers ⟨p, 0xF000⟩ (wordA c a) = true := by
  subst h
  simp only [OpcodeRow.covers, beq_iff_eq]
  apply BitVec.eq_of_getLsbD_eq; intro i hi
  interval_cases i <;> simp [wordA]

theorem covers_wordXK_wide (c : Nibble) (x : Reg) (kk : Byte) (p : Word) (h : p = c.setWidth 16 <<< 12) :
    OpcodeRow.covers ⟨p, 0xF000⟩ (wordXK c x kk) = true := by
  subst h
  simp only [OpcodeRow.covers, beq_iff_eq]
  apply BitVec.eq_of_getLsbD_eq; intro i hi
  interval_cases i <;> simp [wordXK]

theorem covers_wordXK (c : Nibble) (x : Reg) (kk : Byte) (p : Word)
    (h : p = c.setWidth 16 <<< 12 ||| kk.setWidth 16) : OpcodeRow.covers ⟨p, 0xF0FF⟩ (wordXK c x kk) = true := by
  subst h
  simp only [OpcodeRow.covers, beq_iff_eq]
  apply BitVec.eq_of_getLsbD_eq; intro i hi
  interval_cases i <;> simp [wordXK]

theorem covers_wordXY_wide (c : Nibble) (x y : Reg) (n : Nibble) (p : Word) (h : p = c.setWidth 16 <<< 12) :
    OpcodeRow.covers ⟨p, 0xF000⟩ (wordXY c x y n) = true := by
  subst h
  simp only [OpcodeRow.covers, beq_iff_eq]
  apply BitVec.eq_of_getLsbD_eq; intro i hi
  interval_cases i <;> simp [wordXY]

theorem covers_wordXY (c : Nibble) (x y : Reg) (n : Nibble) (p : Word)
    (h : p = c.setWidth 16 <<< 12 ||| n.setWidth 16) : OpcodeRow.covers ⟨p, 0xF00F⟩ (wordXY c x y n) = true := by
  subst h
  simp only [OpcodeRow.covers, beq_iff_eq]
  apply BitVec.eq_of_getLsbD_eq; intro i hi
  interval_cases i <;> simp [wordXY]

theorem nibbleOk_reg (x : Reg) : nibbleOk x.val = true := by
  have := x.isLt
  simp only [nibbleOk, decide_eq_true_eq]; omega

theorem nibbleOk_nibble (n : Nibble) : nibbleOk n.toNat = true := by
  have := n.isLt
  simp only [nibbleOk, decide_eq_true_eq]; omega

theorem byteOk_byte (b : Byte) : byteOk b.toNat = true := by
  have := b.isLt
  simp only [byteOk, decide_eq_true_eq]; omega

theorem addrOk_addr (a : Addr) : addrOk a.toNat = true := by
  have := a.isLt
  simp only [addrOk, decide_eq_true_eq]; omega

/-- The operand types carry the ranges of R82: every instruction is well-formed. -/
theorem wellFormed_of (i : Instr) : i.wellFormed = true := by
  cases i <;>
    simp [Instr.wellFormed, Instr.operands, Operands.wellFormed, nibbleOk_reg, nibbleOk_nibble, byteOk_byte, addrOk_addr] <;>
    decide

theorem cls : Statement .cls := ⟨by decide, wellFormed_of _⟩
theorem ret : Statement .ret := ⟨by decide, wellFormed_of _⟩
theorem jp (nnn : Addr) : Statement (.jp nnn) := ⟨covers_wordA _ _ _ (by decide), wellFormed_of _⟩
theorem call (nnn : Addr) : Statement (.call nnn) := ⟨covers_wordA _ _ _ (by decide), wellFormed_of _⟩
theorem seByte (x : Reg) (kk : Byte) : Statement (.seByte x kk) := ⟨covers_wordXK_wide _ _ _ _ (by decide), wellFormed_of _⟩
theorem sneByte (x : Reg) (kk : Byte) : Statement (.sneByte x kk) := ⟨covers_wordXK_wide _ _ _ _ (by decide), wellFormed_of _⟩
theorem seReg (x y : Reg) : Statement (.seReg x y) := ⟨covers_wordXY _ _ _ _ _ (by decide), wellFormed_of _⟩
theorem ldByte (x : Reg) (kk : Byte) : Statement (.ldByte x kk) := ⟨covers_wordXK_wide _ _ _ _ (by decide), wellFormed_of _⟩
theorem addByte (x : Reg) (kk : Byte) : Statement (.addByte x kk) := ⟨covers_wordXK_wide _ _ _ _ (by decide), wellFormed_of _⟩
theorem ldReg (x y : Reg) : Statement (.ldReg x y) := ⟨covers_wordXY _ _ _ _ _ (by decide), wellFormed_of _⟩
theorem orReg (x y : Reg) : Statement (.orReg x y) := ⟨covers_wordXY _ _ _ _ _ (by decide), wellFormed_of _⟩
theorem andReg (x y : Reg) : Statement (.andReg x y) := ⟨covers_wordXY _ _ _ _ _ (by decide), wellFormed_of _⟩
theorem xorReg (x y : Reg) : Statement (.xorReg x y) := ⟨covers_wordXY _ _ _ _ _ (by decide), wellFormed_of _⟩
theorem addReg (x y : Reg) : Statement (.addReg x y) := ⟨covers_wordXY _ _ _ _ _ (by decide), wellFormed_of _⟩
theorem subReg (x y : Reg) : Statement (.subReg x y) := ⟨covers_wordXY _ _ _ _ _ (by decide), wellFormed_of _⟩
theorem shr (x y : Reg) : Statement (.shr x y) := ⟨covers_wordXY _ _ _ _ _ (by decide), wellFormed_of _⟩
theorem subnReg (x y : Reg) : Statement (.subnReg x y) := ⟨covers_wordXY _ _ _ _ _ (by decide), wellFormed_of _⟩
theorem shl (x y : Reg) : Statement (.shl x y) := ⟨covers_wordXY _ _ _ _ _ (by decide), wellFormed_of _⟩
theorem sneReg (x y : Reg) : Statement (.sneReg x y) := ⟨covers_wordXY _ _ _ _ _ (by decide), wellFormed_of _⟩
theorem ldI (nnn : Addr) : Statement (.ldI nnn) := ⟨covers_wordA _ _ _ (by decide), wellFormed_of _⟩
theorem jpV0 (nnn : Addr) : Statement (.jpV0 nnn) := ⟨covers_wordA _ _ _ (by decide), wellFormed_of _⟩
theorem rnd (x : Reg) (kk : Byte) : Statement (.rnd x kk) := ⟨covers_wordXK_wide _ _ _ _ (by decide), wellFormed_of _⟩
theorem drw (x y : Reg) (n : Nibble) : Statement (.drw x y n) := ⟨covers_wordXY_wide _ _ _ _ _ (by decide), wellFormed_of _⟩
theorem skp (x : Reg) : Statement (.skp x) := ⟨covers_wordXK _ _ _ _ (by decide), wellFormed_of _⟩
theorem sknp (x : Reg) : Statement (.sknp x) := ⟨covers_wordXK _ _ _ _ (by decide), wellFormed_of _⟩
theorem ldVxDT (x : Reg) : Statement (.ldVxDT x) := ⟨covers_wordXK _ _ _ _ (by decide), wellFormed_of _⟩
theorem ldVxK (x : Reg) : Statement (.ldVxK x) := ⟨covers_wordXK _ _ _ _ (by decide), wellFormed_of _⟩
theorem ldDT (x : Reg) : Statement (.ldDT x) := ⟨covers_wordXK _ _ _ _ (by decide), wellFormed_of _⟩
theorem ldST (x : Reg) : Statement (.ldST x) := ⟨covers_wordXK _ _ _ _ (by decide), wellFormed_of _⟩
theorem addI (x : Reg) : Statement (.addI x) := ⟨covers_wordXK _ _ _ _ (by decide), wellFormed_of _⟩
theorem ldF (x : Reg) : Statement (.ldF x) := ⟨covers_wordXK _ _ _ _ (by decide), wellFormed_of _⟩
theorem ldB (x : Reg) : Statement (.ldB x) := ⟨covers_wordXK _ _ _ _ (by decide), wellFormed_of _⟩
theorem ldStore (x : Reg) : Statement (.ldStore x) := ⟨covers_wordXK _ _ _ _ (by decide), wellFormed_of _⟩
theorem ldLoad (x : Reg) : Statement (.ldLoad x) := ⟨covers_wordXK _ _ _ _ (by decide), wellFormed_of _⟩

end Sys2Proof.Laws.Encoding
end

