-- ==== Sys2Proof/Laws/Sprite.lean ====
section
/-! SUPPORT. What the sprite engine does to the framebuffer: a draw toggles each cell its set bits map to, once, and notes
whether one of them was set (42_display.md R171). -/

namespace Sys2Proof.Machine

@[simp] theorem Framebuffer.cell_clear (col : Fin 64) (row : Fin 32) : Framebuffer.clear.cell col row = false := by
  simp [Framebuffer.clear, Framebuffer.cell]

/-- A toggle inverts its cell and no other. -/
theorem Framebuffer.cell_toggle (fb : Framebuffer) (col c : Fin 64) (row r : Fin 32) :
    (fb.toggle col row).cell c r = (fb.cell c r ^^ decide ((c, r) = (col, row))) := by
  unfold Framebuffer.toggle Framebuffer.cell
  by_cases hc : c = col
  · subst hc
    by_cases hr : r = row
    · subst hr; simp
    · simp [hr, Fin.val_ne_of_ne (Ne.symm hr)]
  · simp [hc, Fin.val_ne_of_ne (Ne.symm hc)]

/-- Framebuffers with the same cells are the same. -/
theorem Framebuffer.ext_cell {f g : Framebuffer} (h : ∀ c r, f.cell c r = g.cell c r) : f = g := by
  apply Vector.ext; intro c hc
  apply Vector.ext; intro r hr
  exact h ⟨c, hc⟩ ⟨r, hr⟩

/-- Plot a list of cells in order. -/
def plotCells (l : List (Fin 64 × Fin 32)) (c : Canvas) : Canvas := l.foldl (fun c p => plotCell c p.1 p.2) c

/-- Distinct cells are each toggled once, and the collision flag notes a cell that was set before. -/
theorem plotCells_spec (l : List (Fin 64 × Fin 32)) (hl : l.Nodup) (c : Canvas) :
    (∀ p : Fin 64 × Fin 32, (plotCells l c).fb.cell p.1 p.2 = (c.fb.cell p.1 p.2 ^^ decide (p ∈ l))) ∧
      ((plotCells l c).hit = true ↔ c.hit = true ∨ ∃ p ∈ l, c.fb.cell p.1 p.2 = true) := by
  induction l generalizing c with
  | nil => simp [plotCells]
  | cons q l ih =>
    obtain ⟨hq, hl⟩ := List.nodup_cons.mp hl
    obtain ⟨hcell, hhit⟩ := ih hl (plotCell c q.1 q.2)
    have hfold : plotCells (q :: l) c = plotCells l (plotCell c q.1 q.2) := rfl
    rw [hfold]
    constructor
    · intro p
      rw [hcell p, plotCell, Framebuffer.cell_toggle]
      by_cases hpq : p = q
      · subst hpq; simp [hq]
      · simp [hpq]
    · rw [hhit]
      have hold : ∀ p ∈ l, (plotCell c q.1 q.2).fb.cell p.1 p.2 = c.fb.cell p.1 p.2 := by
        intro p hp
        have hpq : p ≠ q := fun e => hq (e ▸ hp)
        simp [plotCell, Framebuffer.cell_toggle, hpq]
      constructor
      · rintro (h | ⟨p, hp, h⟩)
        · rcases (Bool.or_eq_true _ _).mp h with h | h
          · exact .inl h
          · exact .inr ⟨q, by simp, h⟩
        · exact .inr ⟨p, by simp [hp], by rw [← hold p hp]; exact h⟩
      · rintro (h | ⟨p, hp, h⟩)
        · exact .inl (by simp [plotCell, h])
        · rcases List.mem_cons.mp hp with rfl | hp
          · exact .inl (by simp [plotCell, h])
          · exact .inr ⟨p, hp, by rw [hold p hp]; exact h⟩

/-- The cells the set bits of sprite row `k` map to. -/
def rowCells (x0 y0 : Byte) (k : Nat) (row : Byte) : List (Fin 64 × Fin 32) :=
  ((List.range 8).filter fun b => row.getLsbD (7 - b)).map fun b =>
    (Fin.ofNat 64 (x0.toNat + b), Fin.ofNat 32 (y0.toNat + k))

/-- The cells the set bits of a sprite map to, from row `k` on. -/
def spriteCells (x0 y0 : Byte) : Nat → List Byte → List (Fin 64 × Fin 32)
  | _, [] => []
  | k, row :: rows => rowCells x0 y0 k row ++ spriteCells x0 y0 (k + 1) rows

theorem plotRow_eq (x0 y0 : Byte) (k : Nat) (row : Byte) (c : Canvas) :
    plotRow x0 y0 k row c = plotCells (rowCells x0 y0 k row) c := by
  rw [plotRow, plotCells, rowCells, List.foldl_map, List.foldl_filter]
  rfl

theorem plotRows_eq (x0 y0 : Byte) (k : Nat) (rows : List Byte) (c : Canvas) :
    plotRows x0 y0 k rows c = plotCells (spriteCells x0 y0 k rows) c := by
  induction rows generalizing k c with
  | nil => rfl
  | cons row rows ih =>
    rw [plotRows, ih, plotRow_eq, spriteCells, plotCells, plotCells, plotCells, List.foldl_append]

/-- A cell is one of the sprite's when a set bit maps to it. -/
theorem mem_spriteCells (x0 y0 : Byte) (k : Nat) (rows : List Byte) (p : Fin 64 × Fin 32) :
    p ∈ spriteCells x0 y0 k rows ↔
      ∃ (j : Nat) (hj : j < rows.length) (b : Nat), b < 8 ∧ (rows[j]).getLsbD (7 - b) = true ∧
        p.1.val = (x0.toNat + b) % 64 ∧ p.2.val = (y0.toNat + (k + j)) % 32 := by
  induction rows generalizing k with
  | nil => simp [spriteCells]
  | cons row rows ih =>
    rw [spriteCells, List.mem_append, ih]
    constructor
    · rintro (h | ⟨j, hj, b, hb, hbit, h1, h2⟩)
      · simp only [rowCells, List.mem_map, List.mem_filter, List.mem_range] at h
        obtain ⟨b, ⟨hb, hbit⟩, rfl⟩ := h
        exact ⟨0, by simp, b, hb, by simpa using hbit, rfl, rfl⟩
      · exact ⟨j + 1, by simpa using hj, b, hb, by simpa using hbit, h1, by rw [h2]; congr 2; omega⟩
    · rintro ⟨j, hj, b, hb, hbit, h1, h2⟩
      cases j with
      | zero =>
        refine .inl ?_
        simp only [rowCells, List.mem_map, List.mem_filter, List.mem_range]
        exact ⟨b, ⟨hb, by simpa using hbit⟩, Prod.ext (Fin.ext (by simpa using h1.symm)) (Fin.ext (by simpa using h2.symm))⟩
      | succ j =>
        exact .inr ⟨j, by simpa using hj, b, hb, by simpa using hbit, h1, by rw [h2]; congr 2; omega⟩

/-- No two set bits of a sprite of at most 32 rows map to the same cell (R171). -/
theorem spriteCells_nodup (x0 y0 : Byte) (k : Nat) (rows : List Byte) (h : rows.length ≤ 32) :
    (spriteCells x0 y0 k rows).Nodup := by
  induction rows generalizing k with
  | nil => simp [spriteCells]
  | cons row rows ih =>
    simp only [List.length_cons] at h
    rw [spriteCells, List.nodup_append]
    refine ⟨?_, ih (k + 1) (by omega), ?_⟩
    · refine (List.nodup_range.filter _).map_on ?_
      intro a ha b hb hab
      simp only [List.mem_filter, List.mem_range] at ha hb
      have := congrArg (fun p => p.1.val) hab
      simp only [Fin.val_ofNat] at this
      omega
    · rintro p hp q hq rfl
      obtain ⟨j, hj, b, -, -, -, hrow⟩ := (mem_spriteCells ..).mp hq
      simp only [rowCells, List.mem_map] at hp
      obtain ⟨b', -, rfl⟩ := hp
      simp only [Fin.val_ofNat] at hrow
      omega

/-- The whole draw: every cell a set bit maps to is inverted, and the flag says whether one of them was set (R171). -/
theorem drawSprite_spec (x0 y0 : Byte) (rows : List Byte) (fb : Framebuffer) (h : rows.length ≤ 32) :
    (∀ p : Fin 64 × Fin 32,
        (drawSprite x0 y0 rows fb).fb.cell p.1 p.2 = (fb.cell p.1 p.2 ^^ decide (p ∈ spriteCells x0 y0 0 rows))) ∧
      ((drawSprite x0 y0 rows fb).hit = true ↔ ∃ p ∈ spriteCells x0 y0 0 rows, fb.cell p.1 p.2 = true) := by
  obtain ⟨hc, hh⟩ := plotCells_spec _ (spriteCells_nodup x0 y0 0 rows h) { fb := fb, hit := false }
  rw [drawSprite, plotRows_eq]
  exact ⟨hc, by simpa using hh⟩

end Sys2Proof.Machine
end

