-- ==== Sys2Proof/Laws/Step.lean ====
section
/-! SUPPORT. One law per piece of a step: the event it takes, the key events, the wait, the timers, presentation and
load. -/

namespace Sys2Proof.Machine

/-! ### The host's interactions -/

theorem takeEvent_cons {s : State} {e : HostEvent} {es : List HostEvent} (h : s.hostEvents = e :: es) :
    takeEvent s = (e, { s with hostEvents := es }) := by
  unfold takeEvent; rw [h]

/-- Taking an event changes the model's own queue only. -/
theorem takeEvent_frame (s : State) :
    (takeEvent s).2 =
      { s with hostEvents := (takeEvent s).2.hostEvents, hostCount := (takeEvent s).2.hostCount } := by
  unfold takeEvent; split <;> rfl

theorem frame_of_takeEvent {s s' : State} {e : HostEvent} (h : takeEvent s = (e, s')) :
    s' = { s with hostEvents := s'.hostEvents, hostCount := s'.hostCount } := by
  have := takeEvent_frame s
  rw [h] at this
  exact this

theorem step_of_takeEvent {s s' : State} {e : HostEvent} (h : takeEvent s = (e, s')) : step s = hostStep exec e s' := by
  rw [step, h]

/-! ### Key events (R235) and the wait (R215) -/

theorem applyKeyEvents_frame (es : List KeyEvent) (s : State) :
    applyKeyEvents es s = { s with key := (applyKeyEvents es s).key } := rfl

/-- What the input record puts into the state: the key latch and the draw. -/
theorem acceptInput_frame (inp : TickInput) (s : State) :
    acceptInput inp s = { s with key := (acceptInput inp s).key, draw := inp.draw } := rfl

/-- Completing a wait: nothing without a key-down, else the first one's key to Vx, pc 2 on, Running. -/
theorem completeWait_none {x : Reg} {es : List KeyEvent} {s : State} (h : firstKeyDown es = none) :
    completeWait x es s = s := by
  unfold completeWait; rw [h]

theorem completeWait_some {x : Reg} {es : List KeyEvent} {s : State} {k : Key} (h : firstKeyDown es = some k) :
    completeWait x es s = setStatus (advance (writeV s x (BitVec.ofNat 8 k.val))) .running := by
  unfold completeWait; rw [h]

/-! ### Timers (R237) -/

/-- A decrement is Nat subtraction: 0 stays 0. -/
theorem decTimer_toNat (b : Byte) : (decTimer b).toNat = b.toNat - 1 := by
  revert b
  decide +kernel

theorem timerStep_frame (c : Bool) (s : State) :
    timerStep c s = { s with dt := (timerStep c s).dt, st := (timerStep c s).st } := by
  cases c <;> rfl

/-! ### Presentation (R240) -/

theorem present_dirty {s : State} (h : s.dirty = true) :
    present s = { s with presented := s.presented ++ [s.fb], dirty := false } := if_pos h

theorem present_clean {s : State} (h : s.dirty = false) : present s = s := by simp [present, h]

/-- Presentation touches the display's record and dirty, and leaves dirty 0. -/
theorem present_frame (s : State) : present s = { s with presented := (present s).presented, dirty := false } := by
  cases h : s.dirty with
  | true => rw [present_dirty h]
  | false => rw [present_clean h, ← h]

@[simp] theorem present_dirty_false (s : State) : (present s).dirty = false := by
  rw [present_frame]

/-! ### Steps 3 to 7 -/

/-- Step 6 answers a next state: the instruction's, or the entry of UnknownInstruction. -/
theorem executeFetched_cases (s : State) :
    (∃ i, decode (fetch s) = .ok i ∧ executeFetched exec s = exec i s) ∨
      ((∃ e, decode (fetch s) = .error e) ∧
        executeFetched exec s = .next (raiseFault .unknownInstruction (fetch s) s)) := by
  unfold executeFetched
  cases h : decode (fetch s) with
  | ok i => exact .inl ⟨i, rfl, rfl⟩
  | error e => exact .inr ⟨⟨e, rfl⟩, rfl⟩

/-! ### Program load (R251) -/

theorem loadProgram_notIdle {bytes : List Byte} {s : State} (h : s.status ≠ .idle) :
    loadProgram bytes s = setLoadResult s .notIdle := if_pos h

theorem loadProgram_tooLarge {bytes : List Byte} {s : State} (h : s.status = .idle)
    (hl : Config.maxProgram < bytes.length) : loadProgram bytes s = setLoadResult s .romTooLarge := by
  rw [loadProgram, if_neg (by simp [h]), if_pos hl]

theorem loadProgram_ok {bytes : List Byte} {s : State} (h : s.status = .idle)
    (hl : bytes.length ≤ Config.maxProgram) :
    loadProgram bytes s =
      setLoadResult
        (setStatus (setPc (memWriteList s Config.programBase bytes) Config.programBase) .running) .ok := by
  rw [loadProgram, if_neg (by simp [h]), if_neg (by omega)]

end Sys2Proof.Machine
end

