-- ==== Sys2Proof/Tests/Slice0.lean ====
section
/-! SUPPORT. Tests of the model's own: the WellFormed smoke test, words decoded as the spec's encoding writes them, one-step
tests, and the witnesses of the statements' hypotheses. Expected values come from spec/95_test_vectors.md and from the
examples of the rules; a test's docstring names the vector or the rule. -/

namespace Sys2Proof.Tests

open Sys2Proof Sys2Proof.Machine

/-! ### Helpers -/

/-- A Running block with an empty screen and zero registers, pc at 0x200. -/
def base : State := { State.reset with status := .running, pc := 0x200 }

/-- `s` with the listed registers set. -/
def withV (vs : List (Reg × Byte)) (s : State) : State := vs.foldl (fun t c => writeV t c.1 c.2) s

/-- `s` with the bytes at `a` on. -/
def withMem (a : Word) (bs : List Byte) (s : State) : State := memWriteList s a bs

/-- `s` with one cell set. -/
def withCell (col : Fin 64) (row : Fin 32) (s : State) : State := { s with fb := s.fb.toggle col row }

/-- `s` with one interaction of the host waiting. -/
def queued (e : HostEvent) (s : State) : State := { s with hostEvents := [e] }

/-- The state after the next interaction, if the machine goes on. -/
def afterEvent (e : HostEvent) (s : State) : Option State :=
  match step (queued e s) with
  | .next t => some t
  | .fault _ => none
  | .refused _ => none

/-- The state after a plain tick that fetches the word `w` at the state's pc. -/
def after (w : Nat) (s : State) : Option State :=
  match step (s.withFetchWord 16 w) with
  | .next t => some t
  | .fault _ => none
  | .refused _ => none

/-- The set cells, by column. -/
def cells (fb : Framebuffer) : List (Nat × Nat) :=
  fb.toList.zipIdx.flatMap fun col => col.1.toList.zipIdx.filterMap fun cell => if cell.1 then some (col.2, cell.2) else none

/-- A tick's record with key events and nothing else. -/
def keysTick (es : List KeyEvent) : TickInput := { TickInput.plain with keyEvents := es }

/-- A tick's record with a timer tick and nothing else. -/
def timerTickRecord : TickInput := { TickInput.plain with timerTick := true }

/-! ### WellFormed (R82) -/

theorem test_wellFormed_limits :
    Operands.wellFormed { x := 15, y := 15, n := 15, kk := 255, nnn := 0xFFF } = true := by decide

theorem test_illFormed_x : Operands.wellFormed { x := 16 } = false := by decide

theorem test_illFormed_y : Operands.wellFormed { y := 16 } = false := by decide

theorem test_illFormed_n : Operands.wellFormed { n := 16 } = false := by decide

theorem test_illFormed_kk : Operands.wellFormed { kk := 256 } = false := by decide

theorem test_illFormed_nnn : Operands.wellFormed { nnn := 0x1000 } = false := by decide

theorem test_encoders_refuse : encA 1 0x1000 = none ∧ encA 16 0 = none ∧ encXK 6 16 0 = none ∧ encXK 6 0 256 = none ∧
    encXY 8 0 16 0 = none ∧ encXY 0xD 0 0 16 = none ∧ encX 0xF 16 0x07 = none ∧ encX 0xF 0 256 = none := by decide

theorem test_encoders_give : encA 2 0x210 = some 0x2210 ∧ encXK 3 3 0x42 = some 0x3342 ∧ encXY 0xD 1 2 5 = some 0xD125 ∧
    encX 0xF 0xC 0x0A = some 0xFC0A := by decide

/-! ### Decoding: every constructor's word, bit by bit from R71, R73 and R74; c x y n from the left -/

theorem test_decode_control : decode 0b0000000011100000 = .ok .cls ∧ decode 0b0000000011101110 = .ok .ret ∧
    decode 0b0001_1010_1011_1100 = .ok (.jp 0xABC) ∧ decode 0b0010_1010_1011_1100 = .ok (.call 0xABC) ∧
    decode 0b0011_0011_0100_0010 = .ok (.seByte 3 0x42) ∧ decode 0b0100_0011_0100_0010 = .ok (.sneByte 3 0x42) ∧
    decode 0b0101_0001_0010_0000 = .ok (.seReg 1 2) ∧ decode 0b1001_1010_1011_0000 = .ok (.sneReg 10 11) ∧
    decode 0b1011_0000_0000_0001 = .ok (.jpV0 1) := by decide

theorem test_decode_alu : decode 0b0110_1010_1011_0111 = .ok (.ldByte 10 0xB7) ∧
    decode 0b0111_1111_0000_0001 = .ok (.addByte 15 1) ∧ decode 0b1000_0011_1111_0000 = .ok (.ldReg 3 15) ∧
    decode 0b1000_0001_0010_0001 = .ok (.orReg 1 2) ∧ decode 0b1000_0001_0010_0010 = .ok (.andReg 1 2) ∧
    decode 0b1000_0001_0010_0011 = .ok (.xorReg 1 2) ∧ decode 0b1000_0001_0010_0100 = .ok (.addReg 1 2) ∧
    decode 0b1000_0001_0010_0101 = .ok (.subReg 1 2) ∧ decode 0b1000_0001_0010_0110 = .ok (.shr 1 2) ∧
    decode 0b1000_0001_0010_0111 = .ok (.subnReg 1 2) ∧ decode 0b1000_0001_0010_1110 = .ok (.shl 1 2) ∧
    decode 0b1100_0010_0011_1100 = .ok (.rnd 2 0x3C) := by decide

theorem test_decode_display_memory : decode 0b1101_0001_0010_0101 = .ok (.drw 1 2 5) ∧
    decode 0b1111_0000_0010_1001 = .ok (.ldF 0) ∧ decode 0b1010_0001_0010_0011 = .ok (.ldI 0x123) ∧
    decode 0b1111_0011_0001_1110 = .ok (.addI 3) ∧ decode 0b1111_0000_0011_0011 = .ok (.ldB 0) ∧
    decode 0b1111_0010_0101_0101 = .ok (.ldStore 2) ∧ decode 0b1111_1111_0110_0101 = .ok (.ldLoad 15) := by decide

theorem test_decode_timers_keys : decode 0b1110_0101_1001_1110 = .ok (.skp 5) ∧
    decode 0b1110_0101_1010_0001 = .ok (.sknp 5) ∧ decode 0b1111_0001_0000_0111 = .ok (.ldVxDT 1) ∧
    decode 0b1111_1100_0000_1010 = .ok (.ldVxK 12) ∧ decode 0b1111_0001_0001_0101 = .ok (.ldDT 1) ∧
    decode 0b1111_0010_0001_1000 = .ok (.ldST 2) := by decide

/-- The unknown words of 95_test_vectors.md B1. -/
theorem test_decode_unknown :
    decode 0x0000 = .error (.unknownInstruction 0x0000) ∧ decode 0x00E1 = .error (.unknownInstruction 0x00E1) ∧
    decode 0x0123 = .error (.unknownInstruction 0x0123) ∧ decode 0x5121 = .error (.unknownInstruction 0x5121) ∧
    decode 0x8128 = .error (.unknownInstruction 0x8128) ∧ decode 0x812F = .error (.unknownInstruction 0x812F) ∧
    decode 0x9AB5 = .error (.unknownInstruction 0x9AB5) ∧ decode 0xE19F = .error (.unknownInstruction 0xE19F) ∧
    decode 0xF100 = .error (.unknownInstruction 0xF100) ∧ decode 0xF166 = .error (.unknownInstruction 0xF166) := by decide

theorem test_decode_truncated : decodeBytes [0x00] = .error .truncated := by decide

theorem test_decodeTableWord : decodeTableWord 16 0xD125 = some (.drw 1 2 5) ∧ decodeTableWord 16 0x5121 = none := by decide

/-! ### Reset (R270) and the font (R36) -/

theorem test_font_glyphs : (memRead State.reset 0x000, memRead State.reset 0x001, memRead State.reset 0x00C,
    memRead State.reset 0x037, memRead State.reset 0x04F) = (0xF0, 0x90, 0xF0, 0xE0, 0x80) ∧ fontBytes.length = 80 := by decide

theorem test_reset_memory : memRead State.reset 0x050 = 0 ∧ memRead State.reset 0x200 = 0 ∧ memRead State.reset 0xFFF = 0 := by decide

/-- A placed word runs as the first instruction after reset (log 13). -/
theorem test_withFetchWord : (after 0x6AB7 State.reset).map (fun t => (readV t 10, t.pc, t.status)) =
    some (0xB7, 0x202, .running) := by decide

/-! ### Control flow (B2) -/

/-- C1 -/
theorem test_jp : (after 0x1FFF { base with pc := 0x300 }).map (fun t => t.pc) = some 0xFFF := by decide

/-- C2 and C5 -/
theorem test_call : (after 0x2400 { base with pc := 0x300 }).map (fun t => (t.stack[0], t.depth, t.pc)) =
      some (0x300, 1, 0x400) ∧
    (after 0x2400 { base with pc := 0x300, depth := 16 }).map (fun t => (t.status, t.pc, t.depth)) =
      some (.halted .stackOverflow 0x2400, 0x300, 16) := by decide

/-- C3 and C4 -/
theorem test_ret : (after 0x00EE { base with pc := 0x400, depth := 1, stack := base.stack.set 0 0x300 }).map
      (fun t => (t.depth, t.pc)) = some (0, 0x302) ∧
    (after 0x00EE { base with pc := 0x400 }).map (fun t => (t.status, t.pc, t.depth)) =
      some (.halted .stackUnderflow 0x00EE, 0x400, 0) := by decide

/-- C6, C7 and C16 -/
theorem test_seByte : (after 0x3342 (withV [(3, 0x42)] { base with pc := 0xFFC })).map (fun t => t.pc) = some 0x000 ∧
    (after 0x3342 (withV [(3, 0x41)] { base with pc := 0xFFC })).map (fun t => t.pc) = some 0xFFE ∧
    (after 0x3F00 base).map (fun t => t.pc) = some 0x204 := by decide

/-- C8 -/
theorem test_sneByte : (after 0x4342 (withV [(3, 0x42)] base)).map (fun t => t.pc) = some 0x202 ∧
    (after 0x4341 (withV [(3, 0x42)] base)).map (fun t => t.pc) = some 0x204 := by decide

/-- C9 -/
theorem test_seReg : (after 0x5120 (withV [(1, 9), (2, 9)] base)).map (fun t => t.pc) = some 0x204 := by decide

/-- C10, and R106's example -/
theorem test_sneReg : (after 0x9120 (withV [(1, 9), (2, 9)] base)).map (fun t => t.pc) = some 0x202 ∧
    (after 0x9120 (withV [(1, 7), (2, 8)] { base with pc := 0x300 })).map (fun t => t.pc) = some 0x304 := by decide

/-- C11 -/
theorem test_unknown_word : (after 0x5121 base).map (fun t => (t.status, t.pc)) =
    some (.halted .unknownInstruction 0x5121, 0x200) := by decide

/-- C12 and C13 -/
theorem test_jpV0 : (after 0xB001 (withV [(0, 0xFF)] base)).map (fun t => t.pc) = some 0x100 ∧
    (after 0xBFFF (withV [(0, 0x01)] base)).map (fun t => t.pc) = some 0x000 := by decide

/-- C14 and C15: pc wraps, and a word that lies over the end of memory -/
theorem test_pc_wraps : (after 0x6000 { base with pc := 0xFFE }).map (fun t => t.pc) = some 0x000 ∧
    (afterEvent (.tick TickInput.plain) (withMem 0xFFF [0x60, 0xF0] { base with pc := 0xFFF })).map
      (fun t => (readV t 0, t.pc)) = some (0xF0, 0x001) := by decide

/-! ### Registers and arithmetic (B3) -/

/-- A1 -/
theorem test_ldByte : (after 0x6AB7 base).map (fun t => (readV t 10, t.pc)) = some (0xB7, 0x202) := by decide

/-- A2 and A3 -/
theorem test_addByte : (after 0x7001 (withV [(0, 0xFF), (15, 0x55)] base)).map (fun t => (readV t 0, readV t 15)) =
      some (0x00, 0x55) ∧
    (after 0x7F01 (withV [(15, 0xFF)] base)).map (fun t => readV t 15) = some 0x00 := by decide

/-- A4 -/
theorem test_ldReg : (after 0x8120 (withV [(1, 0x11), (2, 0x22)] base)).map (fun t => readV t 1) = some 0x22 := by decide

/-- A5 -/
theorem test_orReg : (after 0x8121 (withV [(1, 0x0F), (2, 0xF0), (15, 0x77)] base)).map
    (fun t => (readV t 1, readV t 15)) = some (0xFF, 0x77) := by decide

/-- A6 -/
theorem test_andReg : (after 0x8122 (withV [(1, 0x3C), (2, 0x0F), (15, 0x77)] base)).map
    (fun t => (readV t 1, readV t 15)) = some (0x0C, 0x77) := by decide

/-- A7 and A8 -/
theorem test_xorReg : (after 0x8123 (withV [(1, 0x3C), (2, 0x0F)] base)).map (fun t => readV t 1) = some 0x33 ∧
    (after 0x8113 (withV [(1, 0x3C)] base)).map (fun t => readV t 1) = some 0x00 := by decide

/-- A9 and A10: the sum at 256 and at 255 -/
theorem test_addReg : (after 0x8124 (withV [(1, 0xFF), (2, 0x01)] base)).map (fun t => (readV t 1, readV t 15)) =
      some (0x00, 1) ∧
    (after 0x8124 (withV [(1, 0x7F), (2, 0x80), (15, 9)] base)).map (fun t => (readV t 1, readV t 15)) =
      some (0xFF, 0) := by decide

/-- A12 and A13: VF as the destination -/
theorem test_addReg_vf : (after 0x8F14 (withV [(15, 0x10), (1, 0x20)] base)).map (fun t => readV t 15) = some 0 ∧
    (after 0x8FF4 (withV [(15, 0x80)] base)).map (fun t => readV t 15) = some 1 := by decide

/-- A14 to A18 -/
theorem test_subReg : (after 0x8125 (withV [(1, 5), (2, 5)] base)).map (fun t => (readV t 1, readV t 15)) = some (0, 1) ∧
    (after 0x8125 (withV [(1, 0), (2, 1), (15, 9)] base)).map (fun t => (readV t 1, readV t 15)) = some (0xFF, 0) ∧
    (after 0x8F15 (withV [(15, 3), (1, 5)] base)).map (fun t => readV t 15) = some 0 ∧
    (after 0x81F5 (withV [(1, 5), (15, 3)] base)).map (fun t => (readV t 1, readV t 15)) = some (2, 1) := by decide

/-- A24 to A26 -/
theorem test_subnReg : (after 0x8127 (withV [(1, 5), (2, 3), (15, 9)] base)).map (fun t => (readV t 1, readV t 15)) =
      some (0xFE, 0) ∧
    (after 0x8127 (withV [(1, 3), (2, 5)] base)).map (fun t => (readV t 1, readV t 15)) = some (0x02, 1) ∧
    (after 0x8127 (withV [(1, 7), (2, 7)] base)).map (fun t => (readV t 1, readV t 15)) = some (0x00, 1) := by decide

/-- A19, A21 and A23 -/
theorem test_shr : (after 0x8106 (withV [(1, 0xFF)] base)).map (fun t => (readV t 1, readV t 15)) = some (0x7F, 1) ∧
    (after 0x8126 (withV [(1, 0x00), (2, 0x03)] base)).map (fun t => (readV t 1, readV t 15)) = some (0x00, 0) ∧
    (after 0x8F06 (withV [(15, 0x03)] base)).map (fun t => readV t 15) = some 1 := by decide

/-- A22: SHIFT_SOURCE = Vy -/
theorem test_shr_vy : (match shiftRight .vy 1 2 (withV [(2, 0x03)] base) with
    | .next t => (readV t 1, readV t 15)
    | _ => (9, 9)) = (0x01, 1) := by decide

/-- A27 to A30 -/
theorem test_shl : (after 0x810E (withV [(1, 0x80)] base)).map (fun t => (readV t 1, readV t 15)) = some (0x00, 1) ∧
    (after 0x810E (withV [(1, 0x40), (15, 9)] base)).map (fun t => (readV t 1, readV t 15)) = some (0x80, 0) ∧
    (after 0x810E (withV [(1, 0xFF)] base)).map (fun t => (readV t 1, readV t 15)) = some (0xFE, 1) ∧
    (after 0x8F0E (withV [(15, 0x40)] base)).map (fun t => readV t 15) = some 0 := by decide

/-- A31 and A33: the draw of the tick's record -/
theorem test_rnd : (afterEvent (.tick { TickInput.plain with draw := some 0xA5 }) (withMem 0x200 [0xC2, 0x3C] base)).map
      (fun t => readV t 2) = some 0x24 ∧
    (afterEvent (.tick { TickInput.plain with draw := some 0x5A }) (withMem 0x200 [0xC2, 0xFF] base)).map
      (fun t => readV t 2) = some 0x5A := by decide

/-- A32: whatever the draw is; and a draw that no record supplies, which runs and is free -/
theorem test_rnd_zero : (afterEvent (.tick { TickInput.plain with draw := some 0xFF })
      (withMem 0x200 [0xC2, 0x00] (withV [(2, 7)] base))).map (fun t => readV t 2) = some 0 ∧
    (after 0xC200 base).map (fun t => (t.pc, t.drawCount)) = some (0x202, 1) := by decide

/-! ### Display (B4) -/

/-- D1: CLS is presented at the end of its own tick -/
theorem test_cls : (after 0x00E0 (withCell 3 4 base)).map (fun t => (cells t.fb, t.dirty, t.presented.map cells)) =
    some ([], false, [[]]) := by decide

/-- D2, D3 and D4. D4's draw followed by D3's is a pair of identical draws whose second gives VF = 0 (log 14). -/
theorem test_drw_wraps : (after 0xD010 { base with i := 0x300 }).map (fun t => (cells t.fb, readV t 15, t.presented.length)) =
      some ([], 0, 1) ∧
    (after 0xD011 (withMem 0x300 [0xC0] (withV [(0, 63)] { base with i := 0x300 }))).map
      (fun t => (cells t.fb, readV t 15)) = some ([(0, 0), (63, 0)], 0) ∧
    (after 0xD011 (withCell 0 0 (withCell 63 0 (withMem 0x300 [0xC0] (withV [(0, 63)] { base with i := 0x300 }))))).map
      (fun t => (cells t.fb, readV t 15)) = some ([], 1) := by decide

/-- D5, D6 and D8 -/
theorem test_drw_rows : (after 0xD011 (withMem 0x300 [0x80] (withV [(0, 0xFF), (1, 0x21)] { base with i := 0x300 }))).map
      (fun t => (cells t.fb, readV t 15)) = some ([(63, 1)], 0) ∧
    (after 0xD012 (withMem 0x300 [0x80, 0x80] (withV [(1, 31)] { base with i := 0x300 }))).map
      (fun t => (cells t.fb, readV t 15)) = some ([(0, 0), (0, 31)], 0) ∧
    (after 0xD011 (withMem 0x300 [0xC0] (withCell 0 0 { base with i := 0x300 }))).map
      (fun t => (cells t.fb, readV t 15)) = some ([(1, 0)], 1) := by decide

/-- D9 and D10: VF as a coordinate; sprite bytes that wrap from 0xFFF to 0x000 -/
theorem test_drw_corners : (after 0xDF01 (withMem 0x300 [0x80] (withV [(15, 3)] { base with i := 0x300 }))).map
      (fun t => (cells t.fb, readV t 15)) = some ([(3, 0)], 0) ∧
    (after 0xD012 (withMem 0xFFF [0x80] { base with i := 0xFFF })).map
      (fun t => (cells t.fb, readV t 15)) = some ([(0, 0), (0, 1), (1, 1), (2, 1), (3, 1)], 0) := by decide

/-- D11 and D12 -/
theorem test_ldF : (after 0xF029 (withV [(0, 0xFF)] base)).map (fun t => t.i) = some 0x04B ∧
    (after 0xF029 (withV [(0, 0x1A)] base)).map (fun t => t.i) = some 0x032 := by decide

/-! ### Index and memory (B5) -/

/-- M1 -/
theorem test_ldI : (after 0xA123 base).map (fun t => t.i) = some 0x123 := by decide

/-- M2, M3, M4 and M6 -/
theorem test_addI : (after 0xF01E (withV [(0, 1)] { base with i := 0x0FF })).map (fun t => (t.i, readV t 15)) =
      some (0x100, 1) ∧
    (after 0xF01E (withV [(0, 1), (15, 9)] { base with i := 0x0FE })).map (fun t => (t.i, readV t 15)) = some (0x0FF, 0) ∧
    (after 0xF01E (withV [(0, 0xFF)] { base with i := 0xFFF })).map (fun t => (t.i, readV t 15)) = some (0x0FE, 1) ∧
    (after 0xFF1E (withV [(15, 0xF0)] { base with i := 0x010 })).map (fun t => (t.i, readV t 15)) =
      some (0x100, 1) := by decide

/-- M5: FX1E_CARRY_LIMIT = 0xFFF -/
theorem test_addI_limit : (match addIndex 0xFFF 0 (withV [(0, 1), (15, 9)] { base with i := 0x0FF }) with
    | .next t => (t.i, readV t 15)
    | _ => (9, 9)) = (0x100, 0) := by decide

/-- M10 and M11 -/
theorem test_ldB : (after 0xF033 (withV [(0, 255)] { base with i := 0x300 })).map (fun t => memReadList t 0x300 4) =
      some [2, 5, 5, 0] ∧
    (after 0xF033 (withV [(0, 123)] { base with i := 0xFFF })).map (fun t => (memReadList t 0xFFF 4, t.i)) =
      some ([1, 2, 3, 0x90], 0xFFF) := by decide

/-- M12 -/
theorem test_ldStore : (after 0xF255 (withMem 0x403 [0x77] (withV [(0, 1), (1, 2), (2, 3), (3, 4)] { base with i := 0x400 }))).map
    (fun t => (memReadList t 0x400 4, t.i)) = some ([1, 2, 3, 0x77], 0x400) := by decide

/-- M13: a block store over the end of memory -/
theorem test_ldStore_wraps : (after 0xFF55 ({ base with i := 0xFF8, v := Vector.ofFn fun k => BitVec.ofNat 8 k.val })).map
    (fun t => (memReadList t 0xFF8 8, memReadList t 0x000 9)) =
      some ([0, 1, 2, 3, 4, 5, 6, 7], [8, 9, 10, 11, 12, 13, 14, 15, 0x20]) := by decide

/-- M14 and M15 -/
theorem test_ldLoad : (after 0xF065 (withMem 0x500 [0xAA, 0xBB] (withV [(1, 0x11)] { base with i := 0x500 }))).map
      (fun t => (readV t 0, readV t 1, t.i)) = some (0xAA, 0x11, 0x500) ∧
    (after 0xFF65 (withMem 0x500 [0x10, 0x11, 0x12] (withMem 0x50F [0x1F] { base with i := 0x500 }))).map
      (fun t => (readV t 0, readV t 2, readV t 15)) = some (0x10, 0x12, 0x1F) := by decide

/-! ### Timers and keys (B6) -/

/-- K1 and K2 -/
theorem test_ldVxDT : (after 0xF107 { base with dt := 0x20 }).map (fun t => readV t 1) = some 0x20 ∧
    (afterEvent (.tick timerTickRecord) (withMem 0x200 [0xF1, 0x07] { base with dt := 0x20 })).map
      (fun t => (readV t 1, t.dt)) = some (0x1F, 0x1F) := by decide

/-- K3 -/
theorem test_ldDT : (after 0xF115 (withV [(1, 3)] base)).map (fun t => t.dt) = some 3 := by decide

/-- K4 -/
theorem test_ldST : (after 0xF218 (withV [(2, 1)] base)).map (fun t => (t.st, soundActive t)) = some (1, true) := by decide

/-- K5 -/
theorem test_ldVxK : (after 0xFC0A { base with pc := 0x20A }).map (fun t => (t.status, t.pc)) =
    some (.awaitingKey 12, 0x20A) := by decide

/-- K6, K7 and K8: what a later tick does to the wait -/
theorem test_wait : (afterEvent (.tick (keysTick [⟨4, false⟩])) { base with pc := 0x20A, status := .awaitingKey 12 }).map
      (fun t => (t.status, t.pc)) = some (.awaitingKey 12, 0x20A) ∧
    (afterEvent (.tick { keysTick [⟨3, true⟩, ⟨5, true⟩] with timerTick := true })
        { base with pc := 0x20A, dt := 5, status := .awaitingKey 12 }).map
      (fun t => (readV t 12, t.pc, t.status, t.dt, t.key[3], t.key[5])) = some (3, 0x20C, .running, 5, true, true) ∧
    (afterEvent (.tick { keysTick [⟨6, true⟩] with paused := true }) { base with status := .awaitingKey 12 }).map
      (fun t => (t.status, t.key[6])) = some (.awaitingKey 12, true) := by decide

/-- K9, K10 and K12 -/
theorem test_skp : (after 0xE59E (withV [(5, 7)] { base with key := base.key.set 7 true })).map (fun t => t.pc) =
      some 0x204 ∧
    (after 0xE59E (withV [(5, 7)] base)).map (fun t => t.pc) = some 0x202 ∧
    (after 0xE59E (withV [(5, 0x10)] base)).map (fun t => (t.status, t.pc)) =
      some (.halted .keyIndexOutOfRange 0xE59E, 0x200) := by decide

/-- K13 and K14: the latch after the tick's own events -/
theorem test_skp_events : (afterEvent (.tick (keysTick [⟨7, true⟩])) (withMem 0x200 [0xE5, 0x9E] (withV [(5, 7)] base))).map
      (fun t => (t.key[7], t.pc)) = some (true, 0x204) ∧
    (afterEvent (.tick (keysTick [⟨7, true⟩, ⟨7, false⟩])) (withMem 0x200 [0xE5, 0x9E] (withV [(5, 7)] base))).map
      (fun t => (t.key[7], t.pc)) = some (false, 0x202) := by decide

/-- K11, and R214's example -/
theorem test_sknp : (after 0xE5A1 (withV [(5, 7)] base)).map (fun t => t.pc) = some 0x204 ∧
    (after 0xE5A1 (withV [(5, 7)] { base with key := base.key.set 7 true })).map (fun t => t.pc) = some 0x202 ∧
    (after 0xE5A1 (withV [(5, 0x10)] base)).map (fun t => (t.status, t.pc)) =
      some (.halted .keyIndexOutOfRange 0xE5A1, 0x200) := by decide

/-! ### The tick and the load (B7) -/

/-- T1 and T2 -/
theorem test_timers : (afterEvent (.tick timerTickRecord) (withMem 0x200 [0x60, 0x00] { base with st := 5 })).map
      (fun t => (t.dt, t.st, readV t 0)) = some (0, 4, 0) ∧
    (afterEvent (.tick timerTickRecord) (withMem 0x200 [0x60, 0x00] { base with dt := 1, st := 1 })).map
      (fun t => (t.dt, t.st, soundActive t)) = some (0, 0, false) := by decide

/-- T3 and T5: paused, and halted -/
theorem test_frozen : (afterEvent (.tick { timerTickRecord with paused := true }) { base with dt := 9 }).map
      (fun t => (t.dt, t.pc, t.status)) = some (9, 0x200, .running) ∧
    (afterEvent (.tick timerTickRecord) { base with dt := 9, status := .halted .unknownInstruction 0 }).map
      (fun t => (t.dt, t.pc, t.status)) = some (9, 0x200, .halted .unknownInstruction 0) := by decide

/-- T4: Idle -/
theorem test_idle : (afterEvent (.tick { keysTick [⟨1, true⟩] with timerTick := true }) State.reset).map
    (fun t => (t.key[1], t.pc, t.status)) = some (true, 0, .idle) := by decide

/-- T6 -/
theorem test_quit : afterEvent (.tick { TickInput.plain with quit := true }) base = none := by decide

/-- L1's bytes and pc on a short program, and L3 -/
theorem test_load : (afterEvent (.load [0x60, 0x05]) State.reset).map
      (fun t => (t.pc, t.status, t.loadResult, memReadList t 0x200 3)) = some (0x200, .running, some .ok, [0x60, 0x05, 0]) ∧
    (afterEvent (.load [0x60]) base).map (fun t => (t.status, t.loadResult, memRead t 0x200)) =
      some (.running, some .notIdle, 0) := by decide

/-- L2 -/
theorem test_load_too_large : (afterEvent (.load (List.replicate 0xE01 1)) State.reset).map
    (fun t => (t.status, t.loadResult, memRead t 0x200)) = some (.idle, some .romTooLarge, 0) := by decide +kernel

/-- The reset event from a fault (R233, R270) -/
theorem test_reset_event : (afterEvent .reset (withV [(3, 9)] { base with status := .halted .stackOverflow 0x2200 })).map
    (fun t => (t.status, t.pc, readV t 3)) = some (.idle, 0, 0) := by decide

/-! ### Witnesses: states and operands that meet the statements' hypotheses -/

/-- A queued tick that does not quit is the next tick. -/
theorem nextTick_queued (s : State) (inp : TickInput) (h : inp.quit = false) :
    NextTick (queued (.tick inp) s) { s with hostEvents := [] } inp := ⟨rfl, h⟩

theorem witness_DecodeInvertsEncode : Instr.wellFormed .cls = true ∧ (Instr.drw 15 15 15).wellFormed = true ∧
    (Instr.jp 0xFFF).wellFormed = true ∧ (Instr.rnd 15 0xFF).wellFormed = true := by decide

theorem witness_EncodeInvertsDecode : decode 0xFF65 = .ok (.ldLoad 15) ∧ decode 0x00E0 = .ok .cls := by decide

theorem witness_UnknownWords : unknownWord (fetch State.reset).toNat = true ∧ unknownWord 0x0000 = true ∧
    unknownWord 0x00E0 = false ∧ unknownWord 0xFFFF = true ∧ unknownWord 0xF065 = false := by decide

/-- Depth 0, and depths 1 and 16 at both ends of the popping clause. -/
theorem witness_RetPopsOrUnderflows : State.reset.depth.val = 0 ∧ { base with depth := 1 }.depth.val = (0 : Fin 16).val + 1 ∧
    { base with depth := 16 }.depth.val = (15 : Fin 16).val + 1 := by decide

theorem witness_CallPushesOrOverflows : { base with depth := 16 }.depth.val = 16 ∧
    State.reset.depth.val = (0 : Fin 16).val ∧ { base with depth := 15 }.depth.val = (15 : Fin 16).val ∧ base.pc.toNat < 0x1000 := by decide

theorem witness_RegisterSkips : ((1 : Nibble) ≠ 0 ∧ (0x5001 : Word).toNat = 0x5000 + (0 : Reg).val * 256 + (0 : Reg).val * 16 + (1 : Nibble).toNat) ∧
    ((15 : Nibble) ≠ 0 ∧
      (0x9FFF : Word).toNat = 0x9000 + (15 : Reg).val * 256 + (15 : Reg).val * 16 + (15 : Nibble).toNat) := by decide

/-- At depth 0 and at depth 15, the RET straight after its CALL. -/
theorem witness_CallReturnRoundTrip :
    (∃ t, exec (.call 0x400) base = .next t ∧ base.depth.val = (0 : Fin 16).val ∧ t.depth = t.depth ∧
      t.stack[(0 : Fin 16)] = 0x200) ∧
    (∃ t, exec (.call 0x400) { base with depth := 15 } = .next t ∧ { base with depth := 15 }.depth.val = (15 : Fin 16).val ∧
      t.stack[(15 : Fin 16)] = 0x200) := ⟨⟨_, rfl, by decide, rfl, by decide⟩, ⟨_, rfl, by decide, by decide⟩⟩

/-- RND's two cases: a byte supplied and none. -/
theorem witness_RndMasksOneDraw : { base with draw := some 0xA5 }.draw = some (0xA5 : Byte) ∧ base.draw = none := by decide

theorem witness_OnlyDestinationsChange : (Instr.ldLoad 14).writesReg 15 = false ∧ (Instr.ldByte 0 0).writesReg 15 = false ∧
    (Instr.addReg 0 1).writesReg 1 = false := by decide

/-- The last bit of a 15-row sprite at the last column and row covers the wrapped cell, and a cell it does not cover. -/
theorem witness_DrwXorsTheSprite :
    SpriteCovers (withMem 0x30E [0x01] (withV [(0, 63), (1, 31)] { base with i := 0x300 })) 0 1 15 6 13 ∧
    ¬SpriteCovers base 0 1 0 0 0 := by
  refine ⟨⟨14, 7, by decide, by decide, by decide, by decide, by decide⟩, ?_⟩
  rintro ⟨k, _, hk, _⟩
  exact Nat.not_lt_zero k hk

/-- A covered cell that was set, so that VF is 1, and none, so that VF is 0. -/
theorem witness_DrwXorsTheSprite_hit :
    (∃ col row, SpriteCovers (withMem 0x300 [0x80] (withCell 0 0 { base with i := 0x300 })) 0 1 1 col row ∧
      (withMem 0x300 [0x80] (withCell 0 0 { base with i := 0x300 })).fb.cell col row = true) ∧
    ¬∃ col row, SpriteCovers base 0 1 1 col row ∧ base.fb.cell col row = true := by
  refine ⟨⟨0, 0, ⟨0, 0, by decide, by decide, by decide, by decide, by decide⟩, by decide⟩, ?_⟩
  rintro ⟨col, row, _, h⟩
  simp [Framebuffer.cell, base, State.reset] at h

theorem witness_DrwTwiceRestoresTheScreen : ∃ t, exec (.drw 0 1 5) (withV [(0, 62), (1, 30)] base) = .next t ∧
    t.i = (withV [(0, 62), (1, 30)] base).i ∧ readV t 0 = 62 ∧ readV t 1 = 30 ∧
    (∀ k < 5, memRead t (0 + BitVec.ofNat 16 k) = memRead (withV [(0, 62), (1, 30)] base) (0 + BitVec.ofNat 16 k)) :=
  ⟨_, rfl, by decide, by decide, by decide, by decide⟩

/-- One set bit drawn twice on a set cell: the first draw turns it off, so the second finds it clear and leaves VF = 0,
against R173's second claim. -/
theorem witness_DrwTwiceSecondFlagIffAnyBit : ∃ t v, exec (.drw 0 1 1) (withCell 0 0 (withMem 0x300 [0x80] { base with i := 0x300 })) = .next t ∧
    t.i = 0x300 ∧ readV t 0 = 0 ∧ readV t 1 = 0 ∧ memRead t 0x300 = 0x80 ∧ exec (.drw 0 1 1) t = .next v ∧
    readV v regVF = 0 :=
  ⟨_, _, rfl, by decide, by decide, by decide, by decide, rfl, by decide⟩

/-- A draw on a clear screen, whose own VF is 0, and one on the sprite's own cells, which leaves none of them clear. -/
theorem witness_DrwTwiceFlagsTheClearCells :
    (∃ t, exec (.drw 0 1 1) (withMem 0x300 [0x80] { base with i := 0x300 }) = .next t ∧ readV t regVF = 0 ∧
      readV t 0 = 0 ∧ readV t 1 = 0 ∧ t.i = 0x300 ∧ memRead t 0x300 = 0x80 ∧
      SpriteCovers (withMem 0x300 [0x80] { base with i := 0x300 }) 0 1 1 0 0 ∧
      (withMem 0x300 [0x80] { base with i := 0x300 }).fb.cell 0 0 = false) ∧
    (∃ t, exec (.drw 0 1 1) (withCell 0 0 (withMem 0x300 [0x80] { base with i := 0x300 })) = .next t ∧
      readV t 0 = 0 ∧ readV t 1 = 0 ∧ t.i = 0x300 ∧ memRead t 0x300 = 0x80 ∧
      ¬∃ col row, SpriteCovers (withCell 0 0 (withMem 0x300 [0x80] { base with i := 0x300 })) 0 1 1 col row ∧
        (withCell 0 0 (withMem 0x300 [0x80] { base with i := 0x300 })).fb.cell col row = false) := by
  refine ⟨⟨_, rfl, by decide, by decide, by decide, by decide, by decide, ⟨0, 0, by decide, by decide, by decide, by decide, by decide⟩,
    by decide⟩, _, rfl, by decide, by decide, by decide, by decide, ?_⟩
  rintro ⟨col, row, ⟨k, b, hk, hb, hbit, hc, hr⟩, hclear⟩
  obtain rfl : k = 0 := by simpa using hk
  obtain rfl : b = 0 := by clear hc; revert b; decide
  obtain rfl : col = 0 := Fin.ext hc
  obtain rfl : row = 0 := Fin.ext hr
  exact absurd hclear (by decide)

/-- V[x] at 63 and at 255; the first and the last row, wrapping. -/
theorem witness_SpriteWrapsAtColumn63 : ((readV (withV [(0, 63)] base) 0).toNat % 64 = 63 ∧ 0 < (1 : Nibble).toNat ∧
      (0 : Fin 32).val = ((readV (withV [(0, 63)] base) 1).toNat % 32 + 0) % 32) ∧
    ((readV (withV [(0, 255), (1, 31)] base) 0).toNat % 64 = 63 ∧ 14 < (15 : Nibble).toNat ∧
      (13 : Fin 32).val = ((readV (withV [(0, 255), (1, 31)] base) 1).toNat % 32 + 14) % 32) := by decide

theorem witness_BlockLoadInvertsBlockStore : ∃ t, exec (.ldStore 15) { base with i := 0xFF8 } = .next t ∧
    t.i = 0xFF8 := ⟨_, rfl, by decide⟩

/-- A store right behind the running instruction, and over the end of memory. -/
theorem witness_NextFetchSeesTheStore : (1 ≤ (1 : Reg).val ∧ memIndex { base with i := 0x202 }.i = (base.pc.toNat + 2) % 4096) ∧
    (1 ≤ (15 : Reg).val ∧
      memIndex { base with i := 0, pc := 0xFFE }.i = ({ base with pc := 0xFFE }.pc.toNat + 2) % 4096) := by decide

theorem witness_FetchIsBigEndianAndWraps :
    ((0xFFF : Word).toNat % 4096 = { base with pc := 0xFFF }.pc.toNat % 4096 ∧
      (0x000 : Word).toNat % 4096 = ({ base with pc := 0xFFF }.pc.toNat + 1) % 4096) ∧
    ((0x201 : Word).toNat % 4096 = { base with pc := 0x201 }.pc.toNat % 4096 ∧
      (0x202 : Word).toNat % 4096 = ({ base with pc := 0x201 }.pc.toNat + 1) % 4096) := by decide

/-- A block whose next word is Fx07, with and without a timer tick. -/
theorem witness_DelayTimerReadAfterTimerStep : decode (fetch (withMem 0x200 [0xF1, 0x07] base)) = .ok (.ldVxDT 1) ∧
    (withMem 0x200 [0xF1, 0x07] base).status = .running ∧
    (∀ inp ∈ [TickInput.plain, timerTickRecord], inp.paused = false ∧
      ∃ s', NextTick (queued (.tick inp) (withMem 0x200 [0xF1, 0x07] base)) s' inp) := by
  refine ⟨by decide, by decide, fun inp h => ?_⟩
  simp only [List.mem_cons, List.not_mem_nil, or_false] at h
  rcases h with rfl | rfl <;> exact ⟨rfl, _, nextTick_queued _ _ rfl⟩

/-- V[x] at 16 and 255, which fault, and at 15 and 0, which do not. -/
theorem witness_KeySkips : 15 < (readV (withV [(5, 16)] base) 5).toNat ∧ 15 < (readV (withV [(5, 255)] base) 5).toNat ∧
    (readV (withV [(5, 15)] base) 5).toNat = (15 : Key).val ∧ (readV base 5).toNat = (0 : Key).val := by decide

/-- A tick that fetches SKP V5 or SKNP V5 with V5 = 15, with two events for the key. -/
theorem witness_KeySkips_tick : fetched (withMem 0x200 [0xE5, 0x9E] (withV [(5, 15)] base)) = some (.skp 5) ∧
    fetched (withMem 0x200 [0xE5, 0xA1] (withV [(5, 15)] base)) = some (.sknp 5) ∧
    (readV (withMem 0x200 [0xE5, 0x9E] (withV [(5, 15)] base)) 5).toNat = (15 : Key).val ∧
    (withMem 0x200 [0xE5, 0x9E] (withV [(5, 15)] base)).status = .running ∧
    (keysTick [⟨15, true⟩, ⟨15, false⟩]).paused = false ∧
    ∃ s', NextTick (queued (.tick (keysTick [⟨15, true⟩, ⟨15, false⟩])) (withMem 0x200 [0xE5, 0x9E] (withV [(5, 15)] base))) s'
      (keysTick [⟨15, true⟩, ⟨15, false⟩]) :=
  ⟨by decide, by decide, by decide, by decide, rfl, _, nextTick_queued _ _ rfl⟩

/-- A pending wait: a tick with key-up events alone, and one whose first key-down stands behind a key-up. -/
theorem witness_WaitForKey : { base with status := .awaitingKey 12 }.status = .awaitingKey 12 ∧
    (∃ s', NextTick (queued (.tick (keysTick [⟨4, false⟩])) { base with status := .awaitingKey 12 }) s' (keysTick [⟨4, false⟩])) ∧
    (∀ e ∈ (keysTick [⟨4, false⟩]).keyEvents, e.down = false) ∧
    (keysTick [⟨4, false⟩, ⟨3, true⟩, ⟨5, true⟩]).keyEvents =
      [⟨4, false⟩] ++ { key := 3, down := true } :: [⟨5, true⟩] ∧
    (∃ s', NextTick (queued (.tick (keysTick [⟨4, false⟩, ⟨3, true⟩, ⟨5, true⟩])) { base with status := .awaitingKey 15 }) s'
      (keysTick [⟨4, false⟩, ⟨3, true⟩, ⟨5, true⟩])) ∧
    (keysTick [⟨4, false⟩]).paused = false ∧ (keysTick [⟨4, false⟩, ⟨3, true⟩, ⟨5, true⟩]).paused = false :=
  ⟨rfl, ⟨_, nextTick_queued _ _ rfl⟩, by decide, rfl, ⟨_, nextTick_queued _ _ rfl⟩, rfl, rfl⟩

/-- Each of the conditions of faultOf, at its edge, and none; and a word that does not decode. -/
theorem witness_FaultsArePreciseAndNoOthers : faultOf .ret base = some .stackUnderflow ∧
    faultOf (.call 0) { base with depth := 16 } = some .stackOverflow ∧
    faultOf (.call 0) { base with depth := 15 } = none ∧ faultOf .ret { base with depth := 1 } = none ∧
    faultOf (.skp 5) (withV [(5, 16)] base) = some .keyIndexOutOfRange ∧ faultOf (.skp 5) (withV [(5, 15)] base) = none ∧
    faultOf (.sknp 5) (withV [(5, 16)] base) = some .keyIndexOutOfRange ∧
    decode (fetch base) = .error (.unknownInstruction 0) := by decide

/-- A tick in which the fetched instruction faults. -/
theorem witness_FaultsArePreciseAndNoOthers_tick : (withMem 0x200 [0x00, 0xEE] base).status = .running ∧
    fetched (withMem 0x200 [0x00, 0xEE] base) = some .ret ∧
    faultOf .ret (withMem 0x200 [0x00, 0xEE] base) = some .stackUnderflow ∧ timerTickRecord.paused = false ∧
    ∃ s', NextTick (queued (.tick timerTickRecord) (withMem 0x200 [0x00, 0xEE] base)) s' timerTickRecord :=
  ⟨by decide, by decide, by decide, rfl, _, nextTick_queued _ _ rfl⟩

/-- A halted block. -/
def haltedState : State := { base with status := .halted .stackOverflow 0x2200 }

/-- A halted block at each of its three interactions. -/
theorem witness_HaltedUntilReset : haltedState.status = .halted .stackOverflow 0x2200 ∧
    (∃ s', NextTick (queued (.tick timerTickRecord) haltedState) s' timerTickRecord) ∧
    (∃ s', takeEvent (queued (.load [0x60]) haltedState) = (.load [0x60], s')) ∧
    (∃ s', takeEvent (queued .reset haltedState) = (.reset, s')) :=
  ⟨rfl, ⟨_, nextTick_queued _ _ rfl⟩, ⟨_, rfl⟩, ⟨_, rfl⟩⟩

theorem witness_StepRunsTheDecodedInstruction : (withMem 0x200 [0x60, 0x05] base).status = .running ∧
    decode (fetch (withMem 0x200 [0x60, 0x05] base)) = .ok (.ldByte 0 5) ∧ (Instr.ldByte 0 5).wellFormed = true ∧
    TickInput.plain.paused = false ∧
    ∃ s', NextTick (queued (.tick TickInput.plain) (withMem 0x200 [0x60, 0x05] base)) s' TickInput.plain :=
  ⟨by decide, by decide, by decide, rfl, _, nextTick_queued _ _ rfl⟩

/-- A tick with quit, and interactions without: a tick, and a reset, which is no tick. -/
theorem witness_OnlyQuitStops :
    (∃ s', takeEvent (queued (.tick { TickInput.plain with quit := true }) base) =
      (.tick { TickInput.plain with quit := true }, s')) ∧
    (∀ inp s', takeEvent (queued (.tick TickInput.plain) base) = (.tick inp, s') → inp.quit = false) ∧
    (∀ inp s', takeEvent (queued .reset base) = (.tick inp, s') → inp.quit = false) := by
  refine ⟨⟨_, rfl⟩, fun inp s' h => ?_, fun inp s' h => ?_⟩
  · simp only [takeEvent, queued, Prod.mk.injEq, HostEvent.tick.injEq] at h
    rw [← h.1]
    rfl
  · simp [takeEvent, queued] at h

/-- Two events for one key in one tick. -/
theorem witness_KeyEventsApplyInOrder :
    ∃ s', NextTick (queued (.tick (keysTick [⟨7, true⟩, ⟨7, false⟩])) base) s' (keysTick [⟨7, true⟩, ⟨7, false⟩]) :=
  ⟨_, nextTick_queued _ _ rfl⟩

/-- Paused while Running, and Idle. -/
theorem witness_PausedOrIdleTickOnlyTakesKeys : { timerTickRecord with paused := true }.paused = true ∧
    State.reset.status = .idle ∧
    (∃ s', NextTick (queued (.tick { timerTickRecord with paused := true }) base) s' { timerTickRecord with paused := true }) ∧
    ∃ s', NextTick (queued (.tick timerTickRecord) State.reset) s' timerTickRecord :=
  ⟨rfl, rfl, ⟨_, nextTick_queued _ _ rfl⟩, _, nextTick_queued _ _ rfl⟩

/-- A Running block whose next instruction writes neither timer. -/
theorem witness_TimersStepTogether : (∀ x, fetched (withMem 0x200 [0x60, 0x00] base) ≠ some (.ldDT x)) ∧
    (∀ x, fetched (withMem 0x200 [0x60, 0x00] base) ≠ some (.ldST x)) ∧
    (withMem 0x200 [0x60, 0x00] base).status = .running ∧
    ∃ s', NextTick (queued (.tick timerTickRecord) (withMem 0x200 [0x60, 0x00] base)) s' timerTickRecord :=
  ⟨by decide, by decide, by decide, _, nextTick_queued _ _ rfl⟩

/-- The block runs LD V0, 0, which writes neither timer, in a timer tick. -/
theorem timerRun_one (writes : Instr → Bool) (h : writes (.ldByte 0 0) = false) :
    ∃ t, TimerRun writes 1 (queued (.tick timerTickRecord) (withMem 0x200 [0x60, 0x00] base)) t := by
  refine ⟨_, .succ (.zero _) ⟨by decide, ⟨_, timerTickRecord, nextTick_queued _ _ rfl, rfl, rfl⟩, rfl⟩ fun i hi => ?_⟩
  have hf : fetched (queued (.tick timerTickRecord) (withMem 0x200 [0x60, 0x00] base)) = some (.ldByte 0 0) := by decide
  rw [hf] at hi
  cases hi
  exact h

/-- Runs of no tick and of one tick, for either timer. -/
theorem witness_TimerCadence : (∃ t, TimerRun (fun i => match i with | .ldDT _ => true | _ => false) 0 base t) ∧
    (∃ t, TimerRun (fun i => match i with | .ldDT _ => true | _ => false) 1
      (queued (.tick timerTickRecord) (withMem 0x200 [0x60, 0x00] base)) t) ∧
    (∃ t, TimerRun (fun i => match i with | .ldST _ => true | _ => false) 1
      (queued (.tick timerTickRecord) (withMem 0x200 [0x60, 0x00] base)) t) :=
  ⟨⟨_, .zero _⟩, timerRun_one _ rfl, timerRun_one _ rfl⟩

theorem witness_PresentIfDirty : fetched (withMem 0x200 [0x00, 0xE0] base) = some .cls ∧
    fetched (withMem 0x200 [0xD1, 0x2F] base) = some (.drw 1 2 15) ∧ (withMem 0x200 [0x00, 0xE0] base).status = .running ∧
    ∃ s', NextTick (queued (.tick TickInput.plain) (withMem 0x200 [0x00, 0xE0] base)) s' TickInput.plain :=
  ⟨by decide, by decide, by decide, _, nextTick_queued _ _ rfl⟩

/-- Not Idle; Idle with one byte too many; Idle with exactly 0x0E00 bytes, whose last lies at 0xFFF, and with none. -/
theorem witness_LoadProgramOrRefuse : base.status ≠ .idle ∧
    (State.reset.status = .idle ∧ 0x0E00 < (List.replicate 0xE01 (1 : Byte)).length) ∧
    (List.replicate 0xE00 (1 : Byte)).length ≤ 0x0E00 ∧ ([] : List Byte).length ≤ 0x0E00 ∧
    memIndex 0xFFF = 0x200 + 0xDFF ∧ (∃ s', takeEvent (queued (.load [1]) State.reset) = (.load [1], s')) :=
  ⟨by decide, ⟨rfl, by rw [List.length_replicate]; decide⟩, (List.length_replicate ..).le, Nat.zero_le _, by decide, _, rfl⟩

theorem witness_ResetEventResets : (∃ s', takeEvent (queued .reset base) = (.reset, s')) ∧ memIndex 79 < 80 ∧
    80 ≤ memIndex 80 ∧ 80 ≤ memIndex 0xFFF := ⟨⟨_, rfl⟩, by decide⟩

/-- A state that meets the invariant and steps. -/
theorem witness_StepKeepsInvariant : ∃ t, Invariant base ∧ Invariant (queued .reset base) ∧ step (queued .reset base) = .next t :=
  ⟨_, ⟨by decide, by decide, by decide, by decide, rfl⟩, ⟨by decide, by decide, by decide, by decide, rfl⟩, rfl⟩

/-- Two states that differ in the slots above a depth of 1, with a step to take. -/
theorem witness_DeadStackSlotsAreUnobserved : ∃ t,
    SameButDeadSlots (queued .reset { base with depth := 1 }) (queued .reset { base with depth := 1, stack := base.stack.set 15 7 }) ∧
    step (queued .reset { base with depth := 1 }) = .next t :=
  ⟨_, ⟨rfl, by decide⟩, rfl⟩

end Sys2Proof.Tests
end

section
/-! SUPPORT. What an instruction can do to the state, in the few shapes its next state can have, and what no
instruction reads. -/

namespace Sys2Proof.Machine

/-! ### RET and CALL by the depth (R100, R102) -/

theorem exec_ret_empty {s : State} (h : s.depth.val = 0) :
    exec .ret s = .next (raiseFault .stackUnderflow (encode .ret) s) := by
  rw [exec, execRet, (pop_none s).mpr h]

theorem exec_ret_pop {s : State} {j : Fin 16} (h : s.depth.val = j.val + 1) :
    exec .ret s = .next (setPc { s with depth := j.castSucc } (s.stack[j] + Config.insnBytes)) := by
  rw [exec, execRet, pop_some s j h]

theorem exec_call_full (nnn : Addr) {s : State} (h : s.depth.val = 16) :
    exec (.call nnn) s = .next (raiseFault .stackOverflow (encode (.call nnn)) s) := by
  rw [exec, execCall, (push_none s s.pc).mpr h]

theorem exec_call_push (nnn : Addr) {s : State} (h : s.depth.val < 16) :
    exec (.call nnn) s =
      .next (setPc { s with stack := s.stack.set s.depth.val s.pc h, depth := ⟨s.depth.val + 1, Nat.succ_lt_succ h⟩ }
        (zextAddr nnn)) := by
  rw [exec, execCall, push_some s s.pc h]

/-! ### What one instruction can do -/

/-- The register file `v` is that of `s` in every register `i` does not write. -/
def KeepsUnwritten (i : Instr) (s : State) (v : Vector Byte 16) : Prop :=
  ∀ y : Reg, i.writesReg y = false → v[y] = s.v[y]

/-- Every shape an instruction's next state can have: which fields it writes, for which instructions, and what is known
of the values. -/
inductive Effect (s : State) : Instr → State → Prop
  | fault (i : Instr) (c : FaultCause) (w : Word) : Effect s i (raiseFault c w s)
  | wait (x : Reg) : Effect s (.ldVxK x) (setStatus s (.awaitingKey x))
  | jump (i : Instr) (a : Word) : Effect s i (setPc s a)
  | ret (k : Fin 16) (h : s.depth.val = k.val + 1) (a : Word) : Effect s .ret (setPc { s with depth := k.castSucc } a)
  | call (nnn : Addr) (h : s.depth.val < 16) (a : Word) :
      Effect s (.call nnn)
        (setPc { s with stack := s.stack.set s.depth.val s.pc h, depth := ⟨s.depth.val + 1, Nat.succ_lt_succ h⟩ } a)
  | registers {i : Instr} {v : Vector Byte 16} (hv : KeepsUnwritten i s v) (d : Option Byte) (n : Nat) :
      Effect s i (advance { s with v := v, draw := d, drawCount := n })
  | screen {i : Instr} (hi : i = .cls ∨ ∃ x y n, i = .drw x y n) {v : Vector Byte 16} (hv : KeepsUnwritten i s v)
      (f : Framebuffer) : Effect s i (advance { s with v := v, fb := f, dirty := true })
  | index {i : Instr} (hi : (∃ nnn, i = .ldI nnn) ∨ (∃ x, i = .addI x) ∨ ∃ x, i = .ldF x) {v : Vector Byte 16}
      (hv : KeepsUnwritten i s v) {a : Word} (ha : a.toNat < 0x1000) : Effect s i (advance { s with v := v, i := a })
  | delayTimer (x : Reg) (b : Byte) : Effect s (.ldDT x) (advance (setDT s b))
  | soundTimer (x : Reg) (b : Byte) : Effect s (.ldST x) (advance (setST s b))
  | store (i : Instr) {m : Memory} (hm : s.mem.wf = true → m.wf = true) : Effect s i (advance { s with mem := m })

theorem keepsUnwritten_refl (i : Instr) (s : State) : KeepsUnwritten i s s.v := fun _ _ => rfl

/-- A write to a destination keeps what the instruction does not write. -/
theorem KeepsUnwritten.writeV {i : Instr} {s t : State} (h : KeepsUnwritten i s t.v) {x : Reg}
    (hx : i.writesReg x = true) (r : Byte) : KeepsUnwritten i s (writeV t x r).v := by
  intro y hy
  have hne : y ≠ x := by rintro rfl; simp [hx] at hy
  exact (readV_writeV_other t r hne).trans (h y hy)

theorem effect_writeAdvance (s : State) {i : Instr} {x : Reg} (hx : i.writesReg x = true) (r : Byte) :
    Effect s i (advance (writeV s x r)) :=
  .registers ((keepsUnwritten_refl i s).writeV hx r) s.draw s.drawCount

theorem effect_writeFlagAdvance (s : State) {i : Instr} {x : Reg} (hx : i.writesReg x = true)
    (hf : i.writesReg regVF = true) (r : Byte) (f : Bool) : Effect s i (advance (writeResultFlag s x r f)) :=
  .registers (((keepsUnwritten_refl i s).writeV hx r).writeV hf (flagByte f)) s.draw s.drawCount

theorem effect_skip (i : Instr) (s : State) (c : Bool) : Effect s i (skip c s) := skip_def c s ▸ .jump i _

theorem effect_memWriteList (i : Instr) (s : State) (a : Word) (bs : List Byte) :
    Effect s i (advance (memWriteList s a bs)) := by
  rw [memWriteList_frame]
  exact .store i (memWriteList_wf a bs)

/-- Loading V0..Vx keeps the registers above Vx (R196). -/
theorem keepsUnwritten_loadBlock (s : State) (x : Reg) (a : Word) :
    KeepsUnwritten (.ldLoad x) s (loadBlock s a 0 (x.val + 1)).v := by
  intro y hy
  have hxy : ¬y ≤ x := by simpa [Instr.writesReg] using hy
  have hkeep := readV_loadBlock s a 0 (x.val + 1) (by omega) y
  rwa [if_neg (by simp only [Fin.le_def] at hxy; omega)] at hkeep

theorem effect_loadBlock (s : State) (x : Reg) (a : Word) :
    Effect s (.ldLoad x) (advance (loadBlock s a 0 (x.val + 1))) := by
  rw [loadBlock_frame]
  exact .registers (keepsUnwritten_loadBlock s x a) s.draw s.drawCount

theorem effect_rnd (s : State) (x : Reg) (kk r : Byte) : Effect s (.rnd x kk) (advance (writeV (drawRand s).2 x r)) := by
  rw [drawRand_frame]
  exact .registers ((keepsUnwritten_refl _ s).writeV (by simp [Instr.writesReg]) r) _ _

theorem and_mask_lt (a : Word) : (a &&& Config.addrMask).toNat < 0x1000 := by
  rw [mask_toNat]
  exact Nat.mod_lt _ (by decide)

theorem glyphAddress_lt (b : Byte) : (glyphAddress b).toNat < 0x1000 := by
  rw [glyphAddress_toNat]
  omega

/-- Every instruction answers a next state, of one of the shapes of `Effect`. -/
theorem exec_effect (i : Instr) (s : State) : ∃ t, exec i s = .next t ∧ Effect s i t := by
  cases i
  case ret =>
    rcases exec_ret_cases s with ⟨-, h⟩ | ⟨k, hk, h⟩
    · exact ⟨_, h, .fault ..⟩
    · exact ⟨_, h, .ret k hk _⟩
  case call nnn =>
    rcases exec_call_cases nnn s with ⟨-, h⟩ | ⟨hd, h⟩
    · exact ⟨_, h, .fault ..⟩
    · exact ⟨_, h, .call nnn hd _⟩
  case skp x =>
    rcases exec_skp_cases x s with ⟨-, h⟩ | ⟨k, -, h⟩
    · exact ⟨_, h, .fault ..⟩
    · exact ⟨_, h, effect_skip ..⟩
  case sknp x =>
    rcases exec_sknp_cases x s with ⟨-, h⟩ | ⟨k, -, h⟩
    · exact ⟨_, h, .fault ..⟩
    · exact ⟨_, h, effect_skip ..⟩
  case jp | jpV0 => exact ⟨_, rfl, .jump ..⟩
  case seByte | sneByte | seReg | sneReg => exact ⟨_, rfl, effect_skip ..⟩
  case ldByte | addByte | ldReg | orReg | andReg | xorReg | ldVxDT =>
    exact ⟨_, rfl, effect_writeAdvance s (by simp [Instr.writesReg]) _⟩
  case addReg | subReg | shr | subnReg | shl =>
    exact ⟨_, rfl, effect_writeFlagAdvance s (by simp [Instr.writesReg]) (by simp [Instr.writesReg]) _ _⟩
  case rnd x kk => exact ⟨_, rfl, effect_rnd s x kk _⟩
  case cls => exact ⟨_, rfl, .screen (.inl rfl) (keepsUnwritten_refl _ s) _⟩
  case drw x y n =>
    exact ⟨_, rfl, .screen (.inr ⟨x, y, n, rfl⟩) ((keepsUnwritten_refl _ s).writeV (by simp [Instr.writesReg]) _) _⟩
  case ldI nnn =>
    exact ⟨_, rfl, .index (.inl ⟨nnn, rfl⟩) (keepsUnwritten_refl _ s) (by rw [zextAddr_toNat]; exact nnn.isLt)⟩
  case addI x =>
    exact ⟨_, rfl, .index (.inr (.inl ⟨x, rfl⟩)) ((keepsUnwritten_refl _ s).writeV (by simp [Instr.writesReg]) _)
      (and_mask_lt _)⟩
  case ldF x => exact ⟨_, rfl, .index (.inr (.inr ⟨x, rfl⟩)) (keepsUnwritten_refl _ s) (glyphAddress_lt _)⟩
  case ldDT x => exact ⟨_, rfl, .delayTimer x _⟩
  case ldST x => exact ⟨_, rfl, .soundTimer x _⟩
  case ldVxK x => exact ⟨_, rfl, .wait x⟩
  case ldB | ldStore => exact ⟨_, rfl, effect_memWriteList ..⟩
  case ldLoad x => exact ⟨_, rfl, effect_loadBlock s x _⟩

/-! ### What every instruction keeps, by the shape of its effect -/

namespace Effect

variable {i : Instr} {s t : State}

/-- A pc that an instruction writes is masked (R24). -/
theorem pc_masked (h : Effect s i t) : t.pc = s.pc ∨ t.pc.toNat < 0x1000 := by
  cases h with
  | fault | wait => exact .inl rfl
  | jump | ret | call | registers | screen | index | delayTimer | soundTimer | store => exact .inr (and_mask_lt _)

theorem readV_unwritten (h : Effect s i t) {y : Reg} (hy : i.writesReg y = false) : readV t y = readV s y := by
  cases h with
  | registers hv | screen _ hv | index _ hv => exact hv y hy
  | fault | wait | jump | ret | call | delayTimer | soundTimer | store => rfl

/-- Only CALL writes the stack. -/
theorem stack_eq (h : Effect s i t) (hc : ∀ nnn, i ≠ .call nnn) : t.stack = s.stack := by
  cases h with
  | call nnn => exact absurd rfl (hc nnn)
  | fault | wait | jump | ret | registers | screen | index | delayTimer | soundTimer | store => rfl

/-- A slot is written only at the depth, and with pc (R31, R102). -/
theorem stack_slot (h : Effect s i t) (k : Fin 16) :
    t.stack[k] = s.stack[k] ∨ (k.val = s.depth.val ∧ t.stack[k] = s.pc) := by
  cases h with
  | call nnn hd =>
    by_cases hk : k.val = s.depth.val
    · exact .inr ⟨hk, by simp [hk]⟩
    · exact .inl (by simp [Ne.symm hk])
  | fault | wait | jump | ret | registers | screen | index | delayTimer | soundTimer | store => exact .inl rfl

/-- Only RET and CALL move the depth, by one (R31). -/
theorem depth_cases (h : Effect s i t) :
    t.depth = s.depth ∨ (i = .ret ∧ t.depth.val + 1 = s.depth.val) ∨
      ∃ nnn, i = .call nnn ∧ t.depth.val = s.depth.val + 1 := by
  cases h with
  | ret k hk => exact .inr (.inl ⟨rfl, hk.symm⟩)
  | call nnn => exact .inr (.inr ⟨nnn, rfl, rfl⟩)
  | fault | wait | jump | registers | screen | index | delayTimer | soundTimer | store => exact .inl rfl

/-- The display changes in CLS and DRW only, and no instruction clears dirty (R37, R176). -/
theorem display_cases (h : Effect s i t) :
    (t.fb = s.fb ∧ t.dirty = s.dirty) ∨ (t.dirty = true ∧ (i = .cls ∨ ∃ x y n, i = .drw x y n)) := by
  cases h with
  | screen hi => exact .inr ⟨rfl, hi⟩
  | fault | wait | jump | ret | call | registers | index | delayTimer | soundTimer | store => exact .inl ⟨rfl, rfl⟩

theorem dt_cases (h : Effect s i t) : t.dt = s.dt ∨ ∃ x, i = .ldDT x := by
  cases h with
  | delayTimer x => exact .inr ⟨x, rfl⟩
  | fault | wait | jump | ret | call | registers | screen | index | soundTimer | store => exact .inl rfl

theorem st_cases (h : Effect s i t) : t.st = s.st ∨ ∃ x, i = .ldST x := by
  cases h with
  | soundTimer x => exact .inr ⟨x, rfl⟩
  | fault | wait | jump | ret | call | registers | screen | index | delayTimer | store => exact .inl rfl

/-- I is written by LD I, ADD I and LD F only, with a masked address (R28, R29). -/
theorem i_cases (h : Effect s i t) :
    t.i = s.i ∨ (t.i.toNat < 0x1000 ∧ ((∃ nnn, i = .ldI nnn) ∨ (∃ x, i = .addI x) ∨ ∃ x, i = .ldF x)) := by
  cases h with
  | index hi _ ha => exact .inr ⟨ha, hi⟩
  | fault | wait | jump | ret | call | registers | screen | delayTimer | soundTimer | store => exact .inl rfl

theorem mem_wf (h : Effect s i t) (hs : s.mem.wf = true) : t.mem.wf = true := by
  cases h with
  | store _ hm => exact hm hs
  | fault | wait | jump | ret | call | registers | screen | index | delayTimer | soundTimer => exact hs

/-- The key latch, the outputs and the host's queue are no instruction's to write (R38, R250). -/
theorem host_fields (h : Effect s i t) :
    t.key = s.key ∧ t.presented = s.presented ∧ t.loadResult = s.loadResult ∧ t.hostEvents = s.hostEvents ∧
      t.hostCount = s.hostCount := by
  cases h with
  | fault | wait | jump | ret | call | registers | screen | index | delayTimer | soundTimer | store =>
    exact ⟨rfl, rfl, rfl, rfl, rfl⟩

end Effect

/-- A next state of an instruction is one of its effects. -/
theorem effect_of_exec {i : Instr} {s t : State} (h : exec i s = .next t) : Effect s i t := by
  obtain ⟨u, hu, he⟩ := exec_effect i s
  cases hu.symm.trans h
  exact he

/-! ### What no instruction reads -/

/-- `s` with another stack, ST and dirty: the fields that RET and CALL alone, or no instruction, read. -/
def overlay (k : Vector Word 16) (b : Byte) (d : Bool) (s : State) : State := { s with stack := k, st := b, dirty := d }

section

variable (k : Vector Word 16) (b : Byte) (d : Bool) (s : State)

theorem memWriteList_overlay (a : Word) (bs : List Byte) :
    memWriteList (overlay k b d s) a bs = overlay k b d (memWriteList s a bs) := by
  induction bs generalizing s a with
  | nil => rfl
  | cons c bs ih => exact ih (memWrite s a c) (a + 1)

theorem loadBlock_overlay (a : Word) (r n : Nat) :
    loadBlock (overlay k b d s) a r n = overlay k b d (loadBlock s a r n) := by
  induction n generalizing s a r with
  | zero => rfl
  | succ n ih => exact ih (writeV s (Fin.ofNat 16 r) (memRead s a)) (a + 1) (r + 1)

theorem drawRand_overlay : drawRand (overlay k b d s) = ((drawRand s).1, overlay k b d (drawRand s).2) := by
  rcases drawRand_cases s with ⟨r, hr, h⟩ | ⟨hr, h⟩ <;> rw [h] <;> simp [drawRand, overlay, hr]

theorem skip_overlay (c : Bool) : skip c (overlay k b d s) = overlay k b d (skip c s) := by
  rw [skip_def, skip_def]
  rfl

end

/-- The instructions that read or write a field of an overlay. -/
def touchesOverlay : Instr → Bool
  | .ret | .call _ | .cls | .drw .. | .ldST _ => true
  | _ => false

/-- An instruction that touches no overlaid field answers, under an overlay, its answer under that overlay. -/
theorem exec_overlay_of_untouched {i : Instr} (hi : touchesOverlay i = false) {s t : State}
    (h : exec i s = .next t) (k : Vector Word 16) (b : Byte) (d : Bool) :
    exec i (overlay k b d s) = .next (overlay k b d t) := by
  cases i
  case ret | call | cls | drw | ldST => cases hi
  case seByte | sneByte | seReg | sneReg =>
    cases h
    exact congrArg Host.Outcome.next (skip_overlay ..)
  case skp x | sknp x =>
    have hkey : keyIndex (overlay k b d s) x = keyIndex s x := rfl
    simp only [exec, execSkp, execSknp, hkey] at h ⊢
    cases hk : keyIndex s x with
    | none => rw [hk] at h; cases h; rfl
    | some j => rw [hk] at h; cases h; exact congrArg Host.Outcome.next (skip_overlay ..)
  case rnd x kk =>
    cases h
    simp only [exec, execRnd, drawRand_overlay]
    rfl
  case ldB | ldStore =>
    cases h
    exact congrArg (fun u => Host.Outcome.next (advance u)) (memWriteList_overlay ..)
  case ldLoad x =>
    cases h
    exact congrArg (fun u => Host.Outcome.next (advance u)) (loadBlock_overlay ..)
  all_goals cases h; rfl

/-- Stacks that agree below the depth. -/
def LiveSame (n : Nat) (k k' : Vector Word 16) : Prop := ∀ j : Fin 16, j.val < n → k'[j] = k[j]

/-- Stacks that agree below the depth still do when the slot at the depth is pushed on both. -/
theorem LiveSame.push {n : Nat} {k k' : Vector Word 16} (h : LiveSame n k k') (hn : n < 16) (p : Word) :
    LiveSame (n + 1) (k.set n p hn) (k'.set n p hn) := by
  intro j hj
  by_cases hjn : j.val = n
  · simp [hjn]
  · simpa [Ne.symm hjn] using h j (by omega)

/-- `i` takes `s` under the overlay `k`, `b`, `d` to `t` under the overlay `k'`, `b'`, `d'`. The second agrees with the live
slots of `t`, and with the stack, ST and dirty of `t` where the first agreed with those of `s`. -/
structure OverlayAnswer (i : Instr) (s t : State) (k : Vector Word 16) (b : Byte) (d : Bool)
    (k' : Vector Word 16) (b' : Byte) (d' : Bool) : Prop where
  answer : exec i (overlay k b d s) = .next (overlay k' b' d' t)
  live : LiveSame t.depth.val t.stack k'
  stack : k = s.stack → k' = t.stack
  st : b = s.st → b' = t.st
  dirty : d = s.dirty → d' = t.dirty

theorem Effect.overlay_of_untouched {i : Instr} {s t : State} (h : Effect s i t) (hi : touchesOverlay i = false) :
    t.stack = s.stack ∧ t.depth = s.depth ∧ t.st = s.st ∧ t.dirty = s.dirty := by
  cases h with
  | ret | call | soundTimer => cases hi
  | screen h => rcases h with rfl | ⟨_, _, _, rfl⟩ <;> cases hi
  | fault | wait | jump | registers | index | delayTimer | store => exact ⟨rfl, rfl, rfl, rfl⟩

/-- No instruction reads ST, dirty or a stack slot at or above the depth. -/
theorem exec_overlay {i : Instr} {s t : State} (h : exec i s = .next t) {k : Vector Word 16}
    (hlive : LiveSame s.depth.val s.stack k) (b : Byte) (d : Bool) :
    ∃ k' b' d', OverlayAnswer i s t k b d k' b' d' := by
  cases hi : touchesOverlay i with
  | false =>
    obtain ⟨hstack, hdepth, hst, hdirty⟩ := (effect_of_exec h).overlay_of_untouched hi
    exact ⟨k, b, d, exec_overlay_of_untouched hi h k b d, hdepth ▸ hstack ▸ hlive, hstack ▸ id, hst ▸ id, hdirty ▸ id⟩
  | true =>
    cases i with
    | cls | drw => cases h; exact ⟨k, b, true, rfl, hlive, id, id, fun _ => rfl⟩
    | ldST x => cases h; exact ⟨k, readV s x, d, rfl, hlive, id, fun _ => rfl, id⟩
    | ret =>
      rcases exec_ret_cases s with ⟨hd, he⟩ | ⟨j, hj, he⟩ <;> cases he.symm.trans h
      · exact ⟨k, b, d, exec_ret_empty hd, hlive, id, id, id⟩
      · have hpop : (overlay k b d s).stack[j] = s.stack[j] := hlive j (by omega)
        refine ⟨k, b, d, ?_, fun l hl => hlive l (hj ▸ Nat.lt_succ_of_lt hl), id, id, id⟩
        rw [exec_ret_pop (s := overlay k b d s) hj, hpop]
        rfl
    | call nnn =>
      rcases exec_call_cases nnn s with ⟨hd, he⟩ | ⟨hd, he⟩ <;> cases he.symm.trans h
      · exact ⟨k, b, d, exec_call_full nnn hd, hlive, id, id, id⟩
      · exact ⟨k.set s.depth.val s.pc hd, b, d, exec_call_push nnn (s := overlay k b d s) hd,
          hlive.push hd s.pc, fun hk => hk ▸ rfl, id, id⟩
    | _ => cases hi

end Sys2Proof.Machine
end

section
/-! SUPPORT. One equation per branch of a tick. -/

namespace Sys2Proof.Machine

/-! ### Step 6 and presentation -/

theorem executeFetched_ok {run : Instr → State → Outcome} {s : State} {i : Instr} (h : decode (fetch s) = .ok i) :
    executeFetched run s = run i s := by
  rw [executeFetched, h]

theorem executeFetched_error {run : Instr → State → Outcome} {s : State} {e : DecodeError}
    (h : decode (fetch s) = .error e) :
    executeFetched run s = .next (raiseFault .unknownInstruction (fetch s) s) := by
  rw [executeFetched, h]

/-- A next state after presentation is the presentation of one before it. -/
theorem presentAfter_next {o : Outcome} {t : State} (h : presentAfter o = .next t) :
    ∃ t', o = .next t' ∧ present t' = t := by
  cases o with
  | next t' => cases h; exact ⟨t', rfl, rfl⟩
  | fault | refused => cases h

/-! ### The gate of a tick (R234, R236, R245) -/

section

variable {run : Instr → State → Outcome} {inp : TickInput} {s : State}

/-- A tick that is paused, or of an Idle or Halted block, only presents. -/
theorem gatedTick_rest (h : inp.paused = true ∨ s.status = .idle ∨ ∃ c w, s.status = .halted c w) :
    gatedTick run inp s = .next (present s) := by
  unfold gatedTick
  rcases h with h | h | ⟨c, w, h⟩ <;> simp [h]

theorem gatedTick_awaitingKey (hp : inp.paused = false) {x : Reg} (h : s.status = .awaitingKey x) :
    gatedTick run inp s = .next (present (completeWait x inp.keyEvents s)) := by
  simp [gatedTick, hp, h]

theorem gatedTick_running (hp : inp.paused = false) (h : s.status = .running) :
    gatedTick run inp s = presentAfter (executeFetched run (timerStep inp.timerTick s)) := by
  simp [gatedTick, hp, h]

end

/-- What a tick does before it presents: nothing, the completion of a wait, or the fetched word after the timer step. -/
inductive TickGate (inp : TickInput) (s : State) : Prop
  | rest (h : inp.paused = true ∨ s.status = .idle ∨ ∃ c w, s.status = .halted c w)
  | awaitingKey (hp : inp.paused = false) (x : Reg) (h : s.status = .awaitingKey x)
  | running (hp : inp.paused = false) (h : s.status = .running)

theorem tickGate (inp : TickInput) (s : State) : TickGate inp s := by
  cases hp : inp.paused with
  | true => exact .rest (.inl hp)
  | false =>
    cases hs : s.status with
    | idle => exact .rest (.inr (.inl hs))
    | halted c w => exact .rest (.inr (.inr ⟨c, w, hs⟩))
    | awaitingKey x => exact .awaitingKey hp x hs
    | running => exact .running hp hs

/-- A tick without quit is the gate's, on the state with the record put in (R234). -/
theorem hostStep_tick {run : Instr → State → Outcome} {inp : TickInput} (hq : inp.quit = false) (s : State) :
    hostStep run (.tick inp) s = gatedTick run inp (acceptInput inp s) := by
  simp [hostStep, tick, hq]

/-- A tick that answers a next state does not quit (R252). -/
theorem hostStep_tick_next {run : Instr → State → Outcome} {inp : TickInput} {s t : State}
    (h : hostStep run (.tick inp) s = .next t) :
    inp.quit = false ∧ gatedTick run inp (acceptInput inp s) = .next t := by
  cases hq : inp.quit with
  | false => exact ⟨rfl, hostStep_tick hq s ▸ h⟩
  | true => simp [hostStep, tick, hq] at h

end Sys2Proof.Machine
end

section
/-! SUPPORT. Two machines that differ in dead stack slots alone, piece by piece of a step. -/

namespace Sys2Proof.Machine

/-- `s` with another stack. -/
def withStack (s : State) (k : Vector Word 16) : State := { s with stack := k }

theorem sameButDeadSlots_iff {s u : State} :
    SameButDeadSlots s u ↔ ∃ k, u = withStack s k ∧ LiveSame s.depth.val s.stack k :=
  ⟨fun ⟨hrest, hlive⟩ => ⟨u.stack, hrest, hlive⟩, by rintro ⟨k, rfl, hlive⟩; exact ⟨rfl, hlive⟩⟩

/-- An operation that leaves the stack alone and does not read it keeps states the same but for dead slots. -/
theorem map_sameButDeadSlots {s u : State} (h : SameButDeadSlots s u) {f : State → State}
    (hf : ∀ k, f (withStack s k) = withStack (f s) k) (hstack : (f s).stack = s.stack) (hdepth : (f s).depth = s.depth) :
    SameButDeadSlots (f s) (f u) := by
  obtain ⟨k, rfl, hlive⟩ := sameButDeadSlots_iff.mp h
  exact sameButDeadSlots_iff.mpr ⟨k, hf k, hstack ▸ hdepth ▸ hlive⟩

theorem exec_sameButDeadSlots {i : Instr} {s t u : State} (h : SameButDeadSlots s u) (ht : exec i s = .next t) :
    ∃ w, exec i u = .next w ∧ SameButDeadSlots t w := by
  obtain ⟨k, rfl, hlive⟩ := sameButDeadSlots_iff.mp h
  obtain ⟨k', b', d', ha⟩ := exec_overlay ht hlive s.st s.dirty
  cases ha.st rfl
  cases ha.dirty rfl
  exact ⟨_, ha.answer, sameButDeadSlots_iff.mpr ⟨k', rfl, ha.live⟩⟩

theorem executeFetched_sameButDeadSlots {s t u : State} (h : SameButDeadSlots s u)
    (ht : executeFetched exec s = .next t) : ∃ w, executeFetched exec u = .next w ∧ SameButDeadSlots t w := by
  have hfetch : fetch u = fetch s := by rw [h.rest]; rfl
  cases hd : decode (fetch s) with
  | ok i =>
    rw [executeFetched_ok hd] at ht
    rw [executeFetched_ok (hfetch ▸ hd)]
    exact exec_sameButDeadSlots h ht
  | error e =>
    rw [executeFetched_error hd] at ht
    rw [executeFetched_error (hfetch ▸ hd), hfetch]
    cases ht
    exact ⟨_, rfl, map_sameButDeadSlots h (f := raiseFault .unknownInstruction (fetch s)) (fun _ => rfl) rfl rfl⟩

theorem present_sameButDeadSlots {s u : State} (h : SameButDeadSlots s u) : SameButDeadSlots (present s) (present u) := by
  refine map_sameButDeadSlots h (fun k => ?_) (by rw [present_frame]) (by rw [present_frame])
  cases hd : s.dirty with
  | false => rw [present_clean hd, present_clean (s := withStack s k) hd]
  | true => rw [present_dirty hd, present_dirty (s := withStack s k) hd]; rfl

theorem presentAfter_sameButDeadSlots {o p : Outcome} {t : State}
    (h : ∀ t, o = .next t → ∃ w, p = .next w ∧ SameButDeadSlots t w) (ht : presentAfter o = .next t) :
    ∃ w, presentAfter p = .next w ∧ SameButDeadSlots t w := by
  obtain ⟨t', rfl, rfl⟩ := presentAfter_next ht
  obtain ⟨w, rfl, hw⟩ := h t' rfl
  exact ⟨_, rfl, present_sameButDeadSlots hw⟩

theorem timerStep_sameButDeadSlots {s u : State} (h : SameButDeadSlots s u) (c : Bool) :
    SameButDeadSlots (timerStep c s) (timerStep c u) := by
  cases c with
  | false => exact h
  | true => exact map_sameButDeadSlots h (f := timerStep true) (fun _ => rfl) rfl rfl

theorem completeWait_sameButDeadSlots {s u : State} (h : SameButDeadSlots s u) (x : Reg) (es : List KeyEvent) :
    SameButDeadSlots (completeWait x es s) (completeWait x es u) := by
  cases hk : firstKeyDown es with
  | none => rwa [completeWait_none hk, completeWait_none hk]
  | some k =>
    rw [completeWait_some hk, completeWait_some hk]
    exact map_sameButDeadSlots h (f := fun s => setStatus (advance (writeV s x _)) .running) (fun _ => rfl) rfl rfl

theorem gatedTick_sameButDeadSlots {inp : TickInput} {s t u : State} (h : SameButDeadSlots s u)
    (ht : gatedTick exec inp s = .next t) : ∃ w, gatedTick exec inp u = .next w ∧ SameButDeadSlots t w := by
  have hstatus : u.status = s.status := by rw [h.rest]
  cases tickGate inp s with
  | rest hr =>
    rw [gatedTick_rest hr] at ht
    cases ht
    exact ⟨_, gatedTick_rest (hstatus ▸ hr), present_sameButDeadSlots h⟩
  | awaitingKey hp x hs =>
    rw [gatedTick_awaitingKey hp hs] at ht
    cases ht
    exact ⟨_, gatedTick_awaitingKey hp (hstatus ▸ hs), present_sameButDeadSlots (completeWait_sameButDeadSlots h x _)⟩
  | running hp hs =>
    rw [gatedTick_running hp hs] at ht
    rw [gatedTick_running hp (hstatus ▸ hs)]
    exact presentAfter_sameButDeadSlots
      (fun _ => executeFetched_sameButDeadSlots (timerStep_sameButDeadSlots h inp.timerTick)) ht

theorem memWriteList_withStack (s : State) (k : Vector Word 16) (a : Word) (bs : List Byte) :
    memWriteList (withStack s k) a bs = withStack (memWriteList s a bs) k := by
  induction bs generalizing s a with
  | nil => rfl
  | cons b bs ih => exact ih (memWrite s a b) (a + 1)

theorem loadProgram_sameButDeadSlots {s u : State} (h : SameButDeadSlots s u) (bytes : List Byte) :
    SameButDeadSlots (loadProgram bytes s) (loadProgram bytes u) := by
  have hstatus : u.status = s.status := by rw [h.rest]
  by_cases hs : s.status = .idle
  · by_cases hl : Config.maxProgram < bytes.length
    · rw [loadProgram_tooLarge hs hl, loadProgram_tooLarge (hstatus ▸ hs) hl]
      exact map_sameButDeadSlots h (f := (setLoadResult · .romTooLarge)) (fun _ => rfl) rfl rfl
    · rw [loadProgram_ok hs (by omega), loadProgram_ok (hstatus ▸ hs) (by omega)]
      have hmem : SameButDeadSlots (memWriteList s Config.programBase bytes) (memWriteList u Config.programBase bytes) :=
        map_sameButDeadSlots h (f := (memWriteList · Config.programBase bytes))
          (fun _ => memWriteList_withStack ..) (by rw [memWriteList_frame]) (by rw [memWriteList_frame])
      exact map_sameButDeadSlots hmem
        (f := fun s => setLoadResult (setStatus (setPc s Config.programBase) .running) .ok) (fun _ => rfl) rfl rfl
  · rw [loadProgram_notIdle hs, loadProgram_notIdle (hstatus ▸ hs)]
    exact map_sameButDeadSlots h (f := (setLoadResult · .notIdle)) (fun _ => rfl) rfl rfl

theorem hostStep_sameButDeadSlots (e : HostEvent) {s t u : State} (h : SameButDeadSlots s u)
    (ht : hostStep exec e s = .next t) : ∃ w, hostStep exec e u = .next w ∧ SameButDeadSlots t w := by
  cases e with
  | reset =>
    cases ht
    exact ⟨_, rfl, by rw [h.rest]; exact ⟨rfl, fun _ _ => rfl⟩⟩
  | load bytes =>
    cases ht
    exact ⟨_, rfl, loadProgram_sameButDeadSlots h bytes⟩
  | tick inp =>
    obtain ⟨hq, ht⟩ := hostStep_tick_next ht
    obtain ⟨w, hw, hsame⟩ :=
      gatedTick_sameButDeadSlots (map_sameButDeadSlots h (f := acceptInput inp) (fun _ => rfl) rfl rfl) ht
    exact ⟨w, (hostStep_tick hq u).trans hw, hsame⟩

theorem takeEvent_withStack (s : State) (k : Vector Word 16) :
    takeEvent (withStack s k) = ((takeEvent s).1, withStack (takeEvent s).2 k) := by
  unfold takeEvent withStack
  cases s.hostEvents <;> rfl

/-- The host's next interaction does not depend on the stack. -/
theorem takeEvent_sameButDeadSlots {s u : State} (h : SameButDeadSlots s u) :
    (takeEvent u).1 = (takeEvent s).1 ∧ SameButDeadSlots (takeEvent s).2 (takeEvent u).2 := by
  refine ⟨?_, map_sameButDeadSlots h (f := fun s => (takeEvent s).2) (fun k => ?_) ?_ ?_⟩
  · obtain ⟨k, rfl, -⟩ := sameButDeadSlots_iff.mp h
    rw [takeEvent_withStack]
  · rw [takeEvent_withStack]
  · rw [takeEvent_frame]
  · rw [takeEvent_frame]

end Sys2Proof.Machine
end

section
/-! SUPPORT. The invariant, piece by piece of a step. -/

namespace Sys2Proof.Machine

/-- The invariant but for dirty, which a tick restores only when it presents. -/
structure Bounded (s : State) : Prop where
  mem_wf : s.mem.wf = true
  pc_masked : s.pc.toNat < 0x1000
  i_masked : s.i.toNat < 0x1000
  stack_masked : ∀ k : Fin 16, (s.stack[k]).toNat < 0x1000

theorem invariant_iff {s : State} : Invariant s ↔ Bounded s ∧ s.dirty = false :=
  ⟨fun ⟨hm, hpc, hi, hs, hd⟩ => ⟨⟨hm, hpc, hi, hs⟩, hd⟩, fun ⟨⟨hm, hpc, hi, hs⟩, hd⟩ => ⟨hm, hpc, hi, hs, hd⟩⟩

variable {s t : State}

theorem Bounded.congr (h : Bounded s) (hm : t.mem = s.mem) (hpc : t.pc = s.pc) (hi : t.i = s.i) (hs : t.stack = s.stack) :
    Bounded t :=
  ⟨hm ▸ h.mem_wf, hpc ▸ h.pc_masked, hi ▸ h.i_masked, hs ▸ h.stack_masked⟩

theorem setPc_bounded (h : Bounded s) (a : Word) : Bounded (setPc s a) :=
  ⟨h.mem_wf, and_mask_lt a, h.i_masked, h.stack_masked⟩

theorem memWriteList_bounded (h : Bounded s) (a : Word) (bs : List Byte) : Bounded (memWriteList s a bs) := by
  rw [memWriteList_frame]
  exact ⟨memWriteList_wf a bs h.mem_wf, h.pc_masked, h.i_masked, h.stack_masked⟩

/-- Every instruction keeps it: a slot that CALL writes takes pc, which is masked. -/
theorem exec_bounded (h : Bounded s) {i : Instr} (ht : exec i s = .next t) : Bounded t where
  mem_wf := (effect_of_exec ht).mem_wf h.mem_wf
  pc_masked := (effect_of_exec ht).pc_masked.elim (fun hpc => hpc ▸ h.pc_masked) id
  i_masked := (effect_of_exec ht).i_cases.elim (fun hi => hi ▸ h.i_masked) And.left
  stack_masked k := by
    rcases (effect_of_exec ht).stack_slot k with hk | ⟨-, hk⟩ <;> rw [hk]
    · exact h.stack_masked k
    · exact h.pc_masked

theorem executeFetched_bounded (h : Bounded s) (ht : executeFetched exec s = .next t) : Bounded t := by
  rcases executeFetched_cases s with ⟨i, -, he⟩ | ⟨-, he⟩ <;> rw [he] at ht
  · exact exec_bounded h ht
  · cases ht
    exact h.congr rfl rfl rfl rfl

theorem present_invariant (h : Bounded s) : Invariant (present s) := by
  refine invariant_iff.mpr ⟨?_, present_dirty_false s⟩
  rw [present_frame]
  exact h.congr rfl rfl rfl rfl

theorem timerStep_bounded (h : Bounded s) (c : Bool) : Bounded (timerStep c s) := by
  rw [timerStep_frame]
  exact h.congr rfl rfl rfl rfl

theorem completeWait_bounded (h : Bounded s) (x : Reg) (es : List KeyEvent) : Bounded (completeWait x es s) := by
  cases hk : firstKeyDown es with
  | none => rwa [completeWait_none hk]
  | some k =>
    rw [completeWait_some hk]
    exact (setPc_bounded h _).congr rfl rfl rfl rfl

theorem gatedTick_invariant (h : Bounded s) {inp : TickInput} (ht : gatedTick exec inp s = .next t) : Invariant t := by
  cases tickGate inp s with
  | rest hr =>
    rw [gatedTick_rest hr] at ht
    cases ht
    exact present_invariant h
  | awaitingKey hp x hs =>
    rw [gatedTick_awaitingKey hp hs] at ht
    cases ht
    exact present_invariant (completeWait_bounded h x _)
  | running hp hs =>
    rw [gatedTick_running hp hs] at ht
    obtain ⟨t', ht', rfl⟩ := presentAfter_next ht
    exact present_invariant (executeFetched_bounded (timerStep_bounded h _) ht')

theorem loadProgram_invariant {s : State} (h : Invariant s) (bytes : List Byte) : Invariant (loadProgram bytes s) := by
  obtain ⟨hb, hd⟩ := invariant_iff.mp h
  by_cases hs : s.status = .idle
  · by_cases hl : Config.maxProgram < bytes.length
    · rw [loadProgram_tooLarge hs hl]
      exact invariant_iff.mpr ⟨hb.congr rfl rfl rfl rfl, hd⟩
    · rw [loadProgram_ok hs (by omega)]
      refine invariant_iff.mpr ⟨(setPc_bounded (memWriteList_bounded hb _ bytes) _).congr rfl rfl rfl rfl, ?_⟩
      rw [memWriteList_frame]
      exact hd
  · rw [loadProgram_notIdle hs]
    exact invariant_iff.mpr ⟨hb.congr rfl rfl rfl rfl, hd⟩

theorem reset_invariant : Invariant State.reset where
  mem_wf := Memory.wf_reset
  pc_masked := by decide
  i_masked := by decide
  stack_masked := by decide
  clean := rfl

theorem resetBlock_invariant (s : State) : Invariant (resetBlock s) :=
  ⟨reset_invariant.mem_wf, reset_invariant.pc_masked, reset_invariant.i_masked, reset_invariant.stack_masked,
    reset_invariant.clean⟩

theorem hostStep_invariant (e : HostEvent) {s t : State} (h : Invariant s) (ht : hostStep exec e s = .next t) :
    Invariant t := by
  cases e with
  | reset => cases ht; exact resetBlock_invariant s
  | load bytes => cases ht; exact loadProgram_invariant h bytes
  | tick inp =>
    have hb : Bounded (acceptInput inp s) := (invariant_iff.mp h).1.congr rfl rfl rfl rfl
    exact gatedTick_invariant hb (hostStep_tick_next ht).2

theorem takeEvent_invariant {s : State} (h : Invariant s) : Invariant (takeEvent s).2 := by
  rw [takeEvent_frame]
  exact ⟨h.mem_wf, h.pc_masked, h.i_masked, h.stack_masked, h.clean⟩

end Sys2Proof.Machine
end

section
/-! PROOFS. The statements of the family 10_state. -/

namespace Sys2Proof.Proofs

open Sys2Proof.Machine

/-- Settles O55: taking the event keeps the invariant, and so does each of the host's interactions. -/
theorem stepKeepsInvariant : Obligations.StepKeepsInvariant :=
  fun _ _ h ht => hostStep_invariant _ (takeEvent_invariant h) ht

/-- Settles O57, piece by piece of a step. -/
theorem deadStackSlotsAreUnobserved : Obligations.DeadStackSlotsAreUnobserved := by
  intro s u t h ht
  obtain ⟨hevent, hsame⟩ := takeEvent_sameButDeadSlots h
  rw [step, hevent]
  exact hostStep_sameButDeadSlots _ hsame ht

/-- Settles O13, by the shapes of an instruction's effect. -/
theorem stackEntriesAreKept : Obligations.StackEntriesAreKept := by
  intro i s
  obtain ⟨t, ht, he⟩ := exec_effect i s
  refine ⟨t, ht, fun k hk => (he.stack_slot k).resolve_right fun h => hk h.1, fun hne => ?_, he.depth_cases⟩
  by_contra hcall
  exact hne (he.stack_eq fun nnn h => hcall ⟨nnn, h⟩)

/-- Settles O21, by the shapes of an instruction's effect. -/
theorem onlyDestinationsChange : Obligations.OnlyDestinationsChange := by
  intro i s
  obtain ⟨t, ht, he⟩ := exec_effect i s
  exact ⟨t, ht, fun y hy => he.readV_unwritten hy⟩

/-- Settles O28: the shapes of an instruction's effect give what is kept, the meanings of CLS and DRW what is set. -/
theorem onlyClsAndDrwTouchTheScreen : Obligations.OnlyClsAndDrwTouchTheScreen := by
  intro i s
  obtain ⟨t, ht, he⟩ := exec_effect i s
  have hsets : (i = .cls ∨ ∃ x y n, i = .drw x y n) → t.dirty = true := by
    rintro (rfl | ⟨x, y, n, rfl⟩) <;> cases ht <;> rfl
  refine ⟨t, ht, ?_⟩
  rcases he.display_cases with ⟨hfb, hdirty⟩ | ⟨hdirty, hi⟩
  · exact ⟨⟨fun h => .inl (hdirty ▸ h), fun h => h.elim (hdirty ▸ ·) hsets⟩, fun h => absurd hfb h⟩
  · exact ⟨⟨fun _ => .inr hi, fun _ => hdirty⟩, fun _ => hi⟩

/-- Settles O41, by the shapes of an instruction's effect. -/
theorem specialStateWriters : Obligations.SpecialStateWriters := by
  intro i s
  obtain ⟨t, ht, he⟩ := exec_effect i s
  obtain ⟨hkey, hpresented, hload, hevents, hcount⟩ := he.host_fields
  exact ⟨t, ht, hkey, hpresented, hload, hevents, hcount, he.dt_cases.resolve_left, he.st_cases.resolve_left,
    fun h => (he.i_cases.resolve_left h).2⟩

/-- Settles O42: the overlay of ST and dirty alone. -/
theorem soundTimerAndDirtyAreUnread : Obligations.SoundTimerAndDirtyAreUnread := by
  intro i s b d
  obtain ⟨t, ht⟩ := exec_next i s
  obtain ⟨k', b', d', h⟩ := exec_overlay ht (k := s.stack) (fun _ _ => rfl) b d
  cases h.stack rfl
  exact ⟨t, _, ht, h.answer, rfl⟩

/-- Settles O56, by the shapes of an instruction's effect. -/
theorem pcWritesAreMasked : Obligations.PcWritesAreMasked := by
  intro i s
  obtain ⟨t, ht, he⟩ := exec_effect i s
  exact ⟨t, ht, he.pc_masked.resolve_left⟩

/-- Settles O54, field by field. -/
theorem resetMeetsInvariant : Obligations.ResetMeetsInvariant := reset_invariant

end Sys2Proof.Proofs
end

section
/-! PROOFS. The statements of the family 20_memory, and what a block store leaves in memory. -/

namespace Sys2Proof.Proofs

open Sys2Proof.Machine

/-- The byte one on from `a` is at index `(a + 1) mod 4096` (R55). -/
theorem memIndex_add_one (a : Word) : memIndex (a + 1) = (a.toNat + 1) % 4096 := memIndex_add a 1

/-- LD [I], Vx leaves Vk at every address of the `k`-th byte from I, for each k up to x (R195). -/
theorem memRead_registerBlock_stored (s : State) {x k : Reg} (hk : k ≤ x) {c : Word}
    (hc : memIndex c = memIndex (s.i + BitVec.ofNat 16 k.val)) :
    memRead (advance (memWriteList s s.i (registerBlock s x))) c = readV s k := by
  have hlt : k.val < (registerBlock s x).length := by
    rw [registerBlock_length]
    exact Nat.lt_succ_of_le hk
  have hlen : (registerBlock s x).length ≤ 4096 := by
    rw [registerBlock_length]
    omega
  rw [advance_def, memRead_setPc, memRead_memWriteList s s.i c _ k.val hlt hlen hc, registerBlock_getElem]

/-- LD [I], Vx moves pc on by 2, as a store writes memory only. -/
theorem registerBlock_stored_pc (s : State) (x : Reg) :
    (advance (memWriteList s s.i (registerBlock s x))).pc.toNat = (s.pc.toNat + 2) % 4096 := by
  rw [advance_pc, memWriteList_frame]

/-- Settles O36: each of the two reads depends on its address's index alone. -/
theorem fetchIsBigEndianAndWraps : Obligations.FetchIsBigEndianAndWraps := by
  intro s a b ha hb
  have hhigh : memIndex a = memIndex s.pc := by rw [memIndex_eq, memIndex_eq, ha]
  have hlow : memIndex b = memIndex (s.pc + 1) := by rw [memIndex_eq, hb, memIndex_add_one]
  rw [memRead_congr s hhigh, memRead_congr s hlow, fetch, concatBytes_toNat]

/-- Settles O35: the store leaves V0 at I and V1 one on, and the fetch after it reads at these two addresses. -/
theorem nextFetchSeesTheStore : Obligations.NextFetchSeesTheStore := by
  intro x s hx hi
  refine ⟨_, rfl, ?_⟩
  have hpc := registerBlock_stored_pc s x
  have hV0 := memRead_registerBlock_stored s (x := x) (k := 0) (Fin.zero_le x) (c := s.i) (by simp)
  have hV1 := memRead_registerBlock_stored s (x := x) (k := 1) hx (c := s.i + 1) rfl
  have hnext := memIndex_add_one s.i
  rw [memIndex_eq] at hi hnext
  rw [fetchIsBigEndianAndWraps _ s.i (s.i + 1) (by omega) (by omega), hV0, hV1]

end Sys2Proof.Proofs
end

section
/-! SUPPORT. The decoder and the encoder are inverse to each other (30_encoding.md R75, R82). -/

namespace Sys2Proof

/-! ### Decoding an encoded word -/

theorem decode_encode (i : Instr) : decode (encode i) = .ok i := by
  cases i
  case cls | ret => rfl
  case jp | call | ldI | jpV0 => simp [encode, decode, category_wordA, fieldNNN_wordA]
  case seByte | sneByte | ldByte | addByte | rnd =>
    simp [encode, decode, category_wordXK, fieldX_wordXK, fieldKK_wordXK]
  case skp | sknp => simp [encode, decode, decodeKeys, category_wordXK, fieldX_wordXK, fieldKK_wordXK]
  case ldVxDT | ldVxK | ldDT | ldST | addI | ldF | ldB | ldStore | ldLoad =>
    simp [encode, decode, decodeX, category_wordXK, fieldX_wordXK, fieldKK_wordXK]
  case seReg | sneReg =>
    simp [encode, decode, decodeSeReg, decodeSneReg, category_wordXY, fieldX_wordXY, fieldY_wordXY, fieldN_wordXY]
  case ldReg | orReg | andReg | xorReg | addReg | subReg | shr | subnReg | shl =>
    simp [encode, decode, decodeXY, category_wordXY, fieldX_wordXY, fieldY_wordXY, fieldN_wordXY]
  case drw => simp [encode, decode, category_wordXY, fieldX_wordXY, fieldY_wordXY, fieldN_wordXY]

/-! ### Encoding what a word is decoded to -/

/-- The categories by the format of their words and, where a sub-selector is read, by the sub-decoder (R74, R75). -/
inductive CategoryKind (w : Word) : Prop
  | formatZ (hc : (category w).toNat = 0x0)
  | formatA (hc : (category w).toNat ∈ [0x1, 0x2, 0xA, 0xB])
  | formatXK (hc : (category w).toNat ∈ [0x3, 0x4, 0x6, 0x7, 0xC])
  | seReg (hc : (category w).toNat = 0x5)
  | alu (hc : (category w).toNat = 0x8)
  | sneReg (hc : (category w).toNat = 0x9)
  | drw (hc : (category w).toNat = 0xD)
  | keys (hc : (category w).toNat = 0xE)
  | formatX (hc : (category w).toNat = 0xF)

theorem categoryKind (w : Word) : CategoryKind w := by
  have hlt := (category w).isLt
  generalize hc : (category w).toNat = c at hlt
  match c, hlt with
  | 0x0, _ => exact .formatZ hc
  | 0x1, _ | 0x2, _ | 0xA, _ | 0xB, _ => exact .formatA (by simp [hc])
  | 0x3, _ | 0x4, _ | 0x6, _ | 0x7, _ | 0xC, _ => exact .formatXK (by simp [hc])
  | 0x5, _ => exact .seReg hc
  | 0x8, _ => exact .alu hc
  | 0x9, _ => exact .sneReg hc
  | 0xD, _ => exact .drw hc
  | 0xE, _ => exact .keys hc
  | 0xF, _ => exact .formatX hc
  | _ + 16, hlt => exact absurd hlt (by omega)

section

variable {w : Word} {c : Nibble}

theorem wordA_of_category (hc : (category w).toNat = c.toNat) : wordA c (fieldNNN w) = w := by
  rw [← BitVec.eq_of_toNat_eq hc, wordA_fields]

theorem wordXK_of_category (hc : (category w).toNat = c.toNat) : wordXK c (fieldX w) (fieldKK w) = w := by
  rw [← BitVec.eq_of_toNat_eq hc, wordXK_fields]

theorem wordXY_of_category (hc : (category w).toNat = c.toNat) : wordXY c (fieldX w) (fieldY w) (fieldN w) = w := by
  rw [← BitVec.eq_of_toNat_eq hc, wordXY_fields]

theorem wordXK_of_fields {kk : Byte} (hc : (category w).toNat = c.toNat) (hk : fieldKK w = kk) :
    wordXK c (fieldX w) kk = w :=
  hk ▸ wordXK_of_category hc

theorem wordXY_of_fields {n : Nibble} (hc : (category w).toNat = c.toNat) (hn : (fieldN w).toNat = n.toNat) :
    wordXY c (fieldX w) (fieldY w) n = w :=
  BitVec.eq_of_toNat_eq hn ▸ wordXY_of_category hc

end

section

variable {w : Word} {i : Instr}

theorem encode_of_decodeZ (h : decodeZ w = .ok i) : encode i = w := by
  unfold decodeZ at h
  split_ifs at h with hw hw' <;> cases h
  · exact hw.symm
  · exact hw'.symm

theorem encode_of_decodeSeReg (hc : (category w).toNat = 0x5) (h : decodeSeReg w = .ok i) : encode i = w := by
  unfold decodeSeReg at h
  split_ifs at h with hn
  cases h
  exact wordXY_of_fields hc (congrArg BitVec.toNat hn)

theorem encode_of_decodeSneReg (hc : (category w).toNat = 0x9) (h : decodeSneReg w = .ok i) : encode i = w := by
  unfold decodeSneReg at h
  split_ifs at h with hn
  cases h
  exact wordXY_of_fields hc (congrArg BitVec.toNat hn)

theorem encode_of_decodeXY (hc : (category w).toNat = 0x8) (h : decodeXY w = .ok i) : encode i = w := by
  unfold decodeXY at h
  dsimp only at h
  split at h <;> cases h
  all_goals exact wordXY_of_fields hc ‹_›

theorem encode_of_decodeKeys (hc : (category w).toNat = 0xE) (h : decodeKeys w = .ok i) : encode i = w := by
  unfold decodeKeys at h
  split_ifs at h <;> cases h
  all_goals exact wordXK_of_fields hc ‹_›

theorem encode_of_decodeX (hc : (category w).toNat = 0xF) (h : decodeX w = .ok i) : encode i = w := by
  unfold decodeX at h
  dsimp only at h
  split_ifs at h <;> cases h
  all_goals exact wordXK_of_fields hc ‹_›

theorem encode_of_decode (h : decode w = .ok i) : encode i = w := by
  rw [decode] at h
  cases categoryKind w with
  | formatZ hc => rw [hc] at h; exact encode_of_decodeZ h
  | seReg hc => rw [hc] at h; exact encode_of_decodeSeReg hc h
  | alu hc => rw [hc] at h; exact encode_of_decodeXY hc h
  | sneReg hc => rw [hc] at h; exact encode_of_decodeSneReg hc h
  | keys hc => rw [hc] at h; exact encode_of_decodeKeys hc h
  | formatX hc => rw [hc] at h; exact encode_of_decodeX hc h
  | drw hc => rw [hc] at h; cases h; exact wordXY_of_category hc
  | formatA hc =>
    simp only [List.mem_cons, List.not_mem_nil, or_false] at hc
    rcases hc with hc | hc | hc | hc <;> rw [hc] at h <;> cases h <;> exact wordA_of_category hc
  | formatXK hc =>
    simp only [List.mem_cons, List.not_mem_nil, or_false] at hc
    rcases hc with hc | hc | hc | hc | hc <;> rw [hc] at h <;> cases h <;> exact wordXK_of_category hc

end

theorem decode_ok_iff {w : Word} {i : Instr} : decode w = .ok i ↔ encode i = w :=
  ⟨encode_of_decode, by rintro rfl; exact decode_encode i⟩

theorem decodesTo_iff_encode {w : Nat} {i : Instr} : DecodesTo w i ↔ encode i = BitVec.ofNat 16 w := decode_ok_iff

end Sys2Proof
end

section
/-! SUPPORT. The unknown words: the decoder rejects them, no row of the opcode table is theirs, and there are 21582 of
them (30_encoding.md R76). -/

namespace Sys2Proof

/-! ### The decoder rejects the listed sets -/

/-- A chain of selectors rejects when its first one does not match and the rest rejects. -/
theorem ite_ok_eq_error_iff {p : Prop} [Decidable p] {i : Instr} {d : Except DecodeError Instr} {e : DecodeError} :
    (if p then .ok i else d) = .error e ↔ ¬p ∧ d = .error e := by
  split_ifs with h <;> simp [h]

section

variable (w : Word)

theorem decodeZ_error_iff :
    decodeZ w = .error (.unknownInstruction w) ↔ (w.toNat != 0x00E0 && w.toNat != 0x00EE) = true := by
  simp [decodeZ, ite_ok_eq_error_iff, ← BitVec.toNat_inj]

theorem decodeSeReg_error_iff : decodeSeReg w = .error (.unknownInstruction w) ↔ ((fieldN w).toNat != 0) = true := by
  simp [decodeSeReg, ← BitVec.toNat_inj]

theorem decodeSneReg_error_iff : decodeSneReg w = .error (.unknownInstruction w) ↔ ((fieldN w).toNat != 0) = true := by
  simp [decodeSneReg, ← BitVec.toNat_inj]

theorem decodeXY_error_iff :
    decodeXY w = .error (.unknownInstruction w) ↔
      [0x8, 0x9, 0xA, 0xB, 0xC, 0xD, 0xF].contains (fieldN w).toNat = true := by
  have hlt := (fieldN w).isLt
  unfold decodeXY
  interval_cases (fieldN w).toNat <;> simp

theorem decodeKeys_error_iff :
    decodeKeys w = .error (.unknownInstruction w) ↔ (!([0x9E, 0xA1].contains (fieldKK w).toNat)) = true := by
  simp [decodeKeys, ite_ok_eq_error_iff, ← BitVec.toNat_inj]

theorem decodeX_error_iff :
    decodeX w = .error (.unknownInstruction w) ↔
      (!([0x07, 0x0A, 0x15, 0x18, 0x1E, 0x29, 0x33, 0x55, 0x65].contains (fieldKK w).toNat)) = true := by
  simp [decodeX, ite_ok_eq_error_iff, ← BitVec.toNat_inj]

theorem unknownWord_iff_decode : unknownWord w.toNat = true ↔ decode w = .error (.unknownInstruction w) := by
  rw [unknownWord, decode, ← category_toNat, ← fieldN_toNat, ← fieldKK_toNat]
  cases categoryKind w with
  | formatZ hc => rw [hc]; exact (decodeZ_error_iff w).symm
  | seReg hc => rw [hc]; exact (decodeSeReg_error_iff w).symm
  | alu hc => rw [hc]; exact (decodeXY_error_iff w).symm
  | sneReg hc => rw [hc]; exact (decodeSneReg_error_iff w).symm
  | keys hc => rw [hc]; exact (decodeKeys_error_iff w).symm
  | formatX hc => rw [hc]; exact (decodeX_error_iff w).symm
  | drw hc => rw [hc]; exact iff_of_false Bool.false_ne_true nofun
  | formatA hc =>
    simp only [List.mem_cons, List.not_mem_nil, or_false] at hc
    rcases hc with hc | hc | hc | hc <;> rw [hc] <;> exact iff_of_false Bool.false_ne_true nofun
  | formatXK hc =>
    simp only [List.mem_cons, List.not_mem_nil, or_false] at hc
    rcases hc with hc | hc | hc | hc | hc <;> rw [hc] <;> exact iff_of_false Bool.false_ne_true nofun

end

/-! ### The rows of the opcode table -/

theorem category_and (v w : Word) : category (v &&& w) = category v &&& category w := BitVec.extractLsb'_and

theorem fieldN_and (v w : Word) : fieldN (v &&& w) = fieldN v &&& fieldN w := BitVec.extractLsb'_and

theorem fieldKK_and (v w : Word) : fieldKK (v &&& w) = fieldKK v &&& fieldKK w := BitVec.extractLsb'_and

namespace OpcodeRow

variable {r q : OpcodeRow} {w : Word}

theorem and_mask_of_covers (h : r.covers w = true) : w &&& r.mask = r.pattern := by
  simpa [covers] using h

theorem category_of_covers (h : r.covers w = true) (hm : category r.mask = 0xF) : category w = category r.pattern := by
  rw [← and_mask_of_covers h, category_and, hm]
  exact BitVec.and_allOnes.symm

theorem fieldN_of_covers (h : r.covers w = true) (hm : fieldN r.mask = 0xF) : fieldN w = fieldN r.pattern := by
  rw [← and_mask_of_covers h, fieldN_and, hm]
  exact BitVec.and_allOnes.symm

theorem fieldKK_of_covers (h : r.covers w = true) (hm : fieldKK r.mask = 0xFF) : fieldKK w = fieldKK r.pattern := by
  rw [← and_mask_of_covers h, fieldKK_and, hm]
  exact BitVec.and_allOnes.symm

/-- No word is of two rows whose patterns differ in a bit both masks select. -/
def Disjoint (r q : OpcodeRow) : Prop := r.pattern &&& q.mask ≠ q.pattern &&& r.mask

theorem Disjoint.not_covers (h : r.Disjoint q) (hr : r.covers w = true) : ¬q.covers w = true := by
  intro hq
  apply h
  rw [← and_mask_of_covers hr, ← and_mask_of_covers hq, BitVec.and_assoc, BitVec.and_assoc, BitVec.and_comm r.mask]

end OpcodeRow

theorem opcodeTable_pairwise_disjoint : opcodeTable.Pairwise OpcodeRow.Disjoint := by
  unfold OpcodeRow.Disjoint
  decide

theorem row_mem_opcodeTable (i : Instr) : i.row ∈ opcodeTable := by
  cases i <;> simp [opcodeTable, Instr.row]

theorem exists_row_of_mem_opcodeTable {r : OpcodeRow} (h : r ∈ opcodeTable) : ∃ i : Instr, i.row = r := by
  revert r
  simp [opcodeTable]

/-- Every row selects on the category (R72). -/
theorem opcodeTable_mask_category : ∀ r ∈ opcodeTable, category r.mask = 0xF := by
  decide

/-- A word of an instruction's row decodes. -/
theorem decode_ok_of_covers {w : Word} (i : Instr) (h : i.row.covers w = true) : ∃ j, decode w = .ok j := by
  have hw := OpcodeRow.and_mask_of_covers h
  have hc := OpcodeRow.category_of_covers h (opcodeTable_mask_category _ (row_mem_opcodeTable i))
  cases i <;> dsimp only [Instr.row] at h hw hc
  case cls | ret =>
    rw [← BitVec.and_allOnes (x := w)]
    exact ⟨_, congrArg decode hw⟩
  case jp | call | seByte | sneByte | ldByte | addByte | ldI | jpV0 | rnd | drw =>
    rw [decode, hc]
    exact ⟨_, rfl⟩
  case seReg | sneReg | ldReg | orReg | andReg | xorReg | addReg | subReg | shr | subnReg | shl =>
    have hn := OpcodeRow.fieldN_of_covers h rfl
    simp only [decode, decodeSeReg, decodeSneReg, decodeXY, hc, hn]
    exact ⟨_, rfl⟩
  case skp | sknp | ldVxDT | ldVxK | ldDT | ldST | addI | ldF | ldB | ldStore | ldLoad =>
    have hkk := OpcodeRow.fieldKK_of_covers h rfl
    simp only [decode, decodeKeys, decodeX, hc, hkk]
    exact ⟨_, rfl⟩

theorem row_covers_encode (i : Instr) : i.row.covers (encode i) = true := by
  cases i
  case cls | ret => rfl
  case jp | call | ldI | jpV0 => exact Laws.Encoding.covers_wordA _ _ _ rfl
  case seByte | sneByte | ldByte | addByte | rnd => exact Laws.Encoding.covers_wordXK_wide _ _ _ _ rfl
  case drw => exact Laws.Encoding.covers_wordXY_wide _ _ _ _ _ rfl
  case seReg | sneReg | ldReg | orReg | andReg | xorReg | addReg | subReg | shr | subnReg | shl =>
    exact Laws.Encoding.covers_wordXY _ _ _ _ _ rfl
  case skp | sknp | ldVxDT | ldVxK | ldDT | ldST | addI | ldF | ldB | ldStore | ldLoad =>
    exact Laws.Encoding.covers_wordXK _ _ _ _ rfl

theorem row_covers_of_decode {w : Word} {i : Instr} (h : decode w = .ok i) : i.row.covers w = true :=
  encode_of_decode h ▸ row_covers_encode i

/-- Of pairwise disjoint rows at most one is a word's. -/
theorem rowsOf_length_le_one {rows : List OpcodeRow} (hd : rows.Pairwise OpcodeRow.Disjoint) (w : Word) :
    (rows.filter fun r => r.covers w).length ≤ 1 := by
  have hmem (r : OpcodeRow) (hr : r ∈ rows.filter fun r => r.covers w) : r.covers w = true := (List.mem_filter.mp hr).2
  replace hd := hd.filter fun r => r.covers w
  generalize rows.filter (fun r => r.covers w) = l at hmem hd ⊢
  match l with
  | [] | [_] => simp
  | r :: q :: _ =>
    have hrq : r.Disjoint q := List.rel_of_pairwise_cons hd (by simp)
    exact absurd (hmem q (by simp)) (hrq.not_covers (hmem r (by simp)))

theorem rowsOf_eq_nil {w : Word} {e : DecodeError} (h : decode w = .error e) :
    (opcodeTable.filter fun r => r.covers w) = [] := by
  refine List.filter_eq_nil_iff.mpr fun r hr hcovers => ?_
  obtain ⟨i, rfl⟩ := exists_row_of_mem_opcodeTable hr
  obtain ⟨j, hj⟩ := decode_ok_of_covers i hcovers
  cases h.symm.trans hj

theorem rowsOf_length (w : Word) :
    (opcodeTable.filter fun r => r.covers w).length = if unknownWord w.toNat then 0 else 1 := by
  cases hd : decode w with
  | error e =>
    cases decode_error hd
    rw [rowsOf_eq_nil hd, if_pos ((unknownWord_iff_decode w).mpr hd), List.length_nil]
  | ok i =>
    have hknown : ¬unknownWord w.toNat = true := fun h => by cases hd.symm.trans ((unknownWord_iff_decode w).mp h)
    have hrow : i.row ∈ opcodeTable.filter fun r => r.covers w :=
      List.mem_filter.mpr ⟨row_mem_opcodeTable i, row_covers_of_decode hd⟩
    rw [if_neg hknown]
    exact Nat.le_antisymm (rowsOf_length_le_one opcodeTable_pairwise_disjoint w) (List.length_pos_of_mem hrow)

/-! ### The number of unknown words -/

/-- How many words of the high byte `h` are unknown. -/
def unknownCount (h : Nat) : Nat := ((List.range 256).filter fun l => unknownWord (256 * h + l)).length

/-- Above category 0, what R76 says of a word does not depend on its field x. -/
theorem unknownWord_high {h l : Nat} (hh : 16 ≤ h) (hl : l < 256) :
    unknownWord (256 * h + l) = unknownWord (256 * (16 * (h / 16)) + l) := by
  have hc : (256 * h + l) / 4096 = h / 16 := by omega
  have hc' : (256 * (16 * (h / 16)) + l) / 4096 = h / 16 := by omega
  have hn : (256 * h + l) % 16 = (256 * (16 * (h / 16)) + l) % 16 := by omega
  have hk : (256 * h + l) % 256 = (256 * (16 * (h / 16)) + l) % 256 := by omega
  unfold unknownWord
  rw [hc, hc', hn, hk]
  split
  · omega
  all_goals rfl

theorem unknownCount_high {h : Nat} (hh : 16 ≤ h) : unknownCount h = unknownCount (16 * (h / 16)) :=
  congrArg List.length (List.filter_congr fun _ hl => unknownWord_high hh (List.mem_range.mp hl))

/-- How many low bytes are unknown after the first high byte of a category (R76). -/
def unknownCountOfCategory : Nat → Nat
  | 0x0 => 254
  | 0x5 | 0x9 => 240
  | 0x8 => 112
  | 0xE => 254
  | 0xF => 247
  | _ => 0

theorem unknownCount_category : ∀ c < 16, unknownCount (16 * c) = unknownCountOfCategory c := by
  decide +kernel

/-- In category 0 only the high byte 0 has words that are known. -/
theorem unknownCount_low {h : Nat} (h0 : 0 < h) (hh : h < 16) : unknownCount h = 256 := by
  have hall : ∀ l ∈ List.range 256, unknownWord (256 * h + l) = true := by
    intro l hl
    have hl := List.mem_range.mp hl
    have hc : (256 * h + l) / 4096 = 0 := by omega
    have hcls : 256 * h + l ≠ 0x00E0 := by omega
    have hret : 256 * h + l ≠ 0x00EE := by omega
    simp [unknownWord, hc, hcls, hret]
  rw [unknownCount, List.filter_eq_self.mpr hall, List.length_range]

theorem unknownCount_eq {h : Nat} (hh : h < 256) :
    unknownCount h = if 0 < h ∧ h < 16 then 256 else unknownCountOfCategory (h / 16) := by
  split_ifs with hlow
  · exact unknownCount_low hlow.1 hlow.2
  · rw [← unknownCount_category _ (by omega)]
    rcases Nat.eq_zero_or_pos h with rfl | hpos
    · rfl
    · exact unknownCount_high (by omega)

theorem sum_unknownCount : ((List.range 256).map unknownCount).sum = 21582 := by
  rw [List.map_congr_left fun h hh => unknownCount_eq (List.mem_range.mp hh)]
  decide +kernel

end Sys2Proof
end

section
/-! SUPPORT. The encoding functions on numbers give the words of the formats (30_encoding.md R82). -/

namespace Sys2Proof

/-- A field put above one of `k` bits is a shifted sum. -/
theorem shiftLeft_or {a b k : Nat} (hb : b < 2 ^ k) : a <<< k ||| b = a * 2 ^ k + b := by
  rw [← Nat.shiftLeft_add_eq_or_of_lt hb, Nat.shiftLeft_eq]

theorem encA_eq (c nnn : Nat) :
    encA c nnn = if c ≤ 15 ∧ nnn ≤ 0xFFF then some (BitVec.ofNat 16 (c * 4096 + nnn)) else none := by
  simp only [encA, nibbleOk, addrOk, Bool.and_eq_true, decide_eq_true_eq]
  split_ifs
  · rw [shiftLeft_or (by omega)]
    rfl
  · rfl

theorem encXK_eq (c x kk : Nat) :
    encXK c x kk =
      if c ≤ 15 ∧ x ≤ 15 ∧ kk ≤ 255 then some (BitVec.ofNat 16 (c * 4096 + x * 256 + kk)) else none := by
  simp only [encXK, nibbleOk, byteOk, Bool.and_eq_true, decide_eq_true_eq, and_assoc]
  split_ifs
  · rw [Nat.or_assoc, shiftLeft_or (a := x) (by omega), shiftLeft_or (by omega), Nat.add_assoc]
    rfl
  · rfl

theorem encXY_eq (c x y n : Nat) :
    encXY c x y n =
      if c ≤ 15 ∧ x ≤ 15 ∧ y ≤ 15 ∧ n ≤ 15 then some (BitVec.ofNat 16 (c * 4096 + x * 256 + y * 16 + n)) else none := by
  simp only [encXY, nibbleOk, Bool.and_eq_true, decide_eq_true_eq, and_assoc]
  split_ifs
  · rw [Nat.or_assoc, Nat.or_assoc, shiftLeft_or (a := y) (by omega), shiftLeft_or (a := x) (by omega),
      shiftLeft_or (by omega), ← Nat.add_assoc, ← Nat.add_assoc]
    rfl
  · rfl

theorem encA_wordA (c : Nibble) (a : Addr) : encA c.toNat a.toNat = some (wordA c a) := by
  rw [encA_eq, if_pos ⟨Nat.le_of_lt_succ c.isLt, Nat.le_of_lt_succ a.isLt⟩, wordA_eq_ofNat]

theorem encXK_wordXK (c : Nibble) (x : Reg) (kk : Byte) : encXK c.toNat x.val kk.toNat = some (wordXK c x kk) := by
  rw [encXK_eq, if_pos ⟨Nat.le_of_lt_succ c.isLt, Nat.le_of_lt_succ x.isLt, Nat.le_of_lt_succ kk.isLt⟩, wordXK_eq_ofNat]

theorem encXY_wordXY (c : Nibble) (x y : Reg) (n : Nibble) :
    encXY c.toNat x.val y.val n.toNat = some (wordXY c x y n) := by
  rw [encXY_eq, if_pos ⟨Nat.le_of_lt_succ c.isLt, Nat.le_of_lt_succ x.isLt, Nat.le_of_lt_succ y.isLt,
    Nat.le_of_lt_succ n.isLt⟩, wordXY_eq_ofNat]

end Sys2Proof
end

section
/-! PROOFS. The statements of the family 30_encoding. -/

namespace Sys2Proof.Proofs

open Sys2Proof.Machine

/-- Settles O1, by the format of the instruction's word. -/
theorem decodeInvertsEncode : Obligations.DecodeInvertsEncode := fun i _ => decode_encode i

/-- Settles O2, by the category of the word. -/
theorem encodeInvertsDecode : Obligations.EncodeInvertsDecode := fun _ _ h => encode_of_decode h

/-- Settles O3: the decoder's rejections are the listed sets, a word decodes exactly when it is of a row, and rows are
pairwise disjoint. -/
theorem unknownWordsAreExactlyTheListedSets : Obligations.UnknownWordsAreExactlyTheListedSets := by
  refine ⟨unknownWord_iff_decode, rowsOf_length, sum_unknownCount, fun s h => ?_⟩
  exact executeFetched_error ((unknownWord_iff_decode (fetch s)).mp h)

/-- Settles O4: on values in range the fields do not overlap, so the shifted fields' disjunction is their
sum; `encX` computes what `encXK` does. -/
theorem encodersRefuseOutOfRange : Obligations.EncodersRefuseOutOfRange :=
  ⟨encA_eq, encXK_eq, encXY_eq, encXK_eq, encA_wordA, fun c x kk => ⟨encXK_wordXK c x kk, encXK_wordXK c x kk⟩,
    encXY_wordXY⟩

/-- Settles O5: each word is the encoding of its instruction, and the last two are unknown words. -/
theorem sampleWordsDecode : Obligations.SampleWordsDecode :=
  ⟨decodesTo_iff_encode.mpr rfl, decodesTo_iff_encode.mpr rfl, decodesTo_iff_encode.mpr rfl,
    decodesTo_iff_encode.mpr rfl, decodesTo_iff_encode.mpr rfl, decodesTo_iff_encode.mpr rfl,
    decodesTo_iff_encode.mpr rfl, decodesTo_iff_encode.mpr rfl,
    (unknownWord_iff_decode _).mp rfl, (unknownWord_iff_decode _).mp rfl⟩

end Sys2Proof.Proofs
end

section
/-! SUPPORT. Writes of pc and skips as frames, and the words of the control-flow instructions as numbers
(40_control_flow.md R100 to R108). -/

namespace Sys2Proof.Machine

/-! ### Frames of pc -/

theorem onlyPc_setPc (s : State) (a : Word) : OnlyPc s (setPc s a) :=
  ⟨rfl, fun _ => rfl, fun _ => rfl⟩

theorem onlyPc_skip (c : Bool) (s : State) : OnlyPc s (skip c s) := by
  rw [skip_def]
  exact onlyPc_setPc s _

theorem pcMoves_skip_eq (s : State) (a b : Byte) :
    PcMoves s (skip (a == b) s) (if a.toNat = b.toNat then 4 else 2) := by
  rw [PcMoves, skip_pc]
  simp only [beq_iff_eq, BitVec.toNat_inj]

theorem pcMoves_skip_ne (s : State) (a b : Byte) :
    PcMoves s (skip (a != b) s) (if a.toNat = b.toNat then 2 else 4) := by
  rw [PcMoves, skip_pc]
  simp only [bne_iff_ne, ne_eq, ite_not, BitVec.toNat_inj]

/-- A jump to a literal is not shortened by the mask, as the literal has 12 bits (R101). -/
theorem setPc_zextAddr_toNat (s : State) (nnn : Addr) : (setPc s (zextAddr nnn)).pc.toNat = nnn.toNat := by
  rw [setPc_toNat, zextAddr_toNat, Nat.mod_eq_of_lt nnn.isLt]

end Sys2Proof.Machine

namespace Sys2Proof

/-! ### Words (R74, R76) -/

section

variable {i : Instr} (c : Nibble) (x y : Reg) (kk : Byte) (nnn : Addr)

theorem decodesTo_of_encode_wordA (h : encode i = wordA c nnn) : DecodesTo (c.toNat * 4096 + nnn.toNat) i :=
  decodesTo_iff_encode.mpr (h.trans (wordA_eq_ofNat c nnn))

theorem decodesTo_of_encode_wordXK (h : encode i = wordXK c x kk) :
    DecodesTo (c.toNat * 4096 + x.val * 256 + kk.toNat) i :=
  decodesTo_iff_encode.mpr (h.trans (wordXK_eq_ofNat c x kk))

theorem decodesTo_of_encode_wordXY (n : Nibble) (h : encode i = wordXY c x y n) :
    DecodesTo (c.toNat * 4096 + x.val * 256 + y.val * 16 + n.toNat) i :=
  decodesTo_iff_encode.mpr (h.trans (wordXY_eq_ofNat c x y n))

end

/-- A word of category 5 or 9 with a nonzero low nibble is unknown (R76). -/
theorem unknownWord_of_category_5_or_9 {w : Nat} (hc : w / 4096 = 0x5 ∨ w / 4096 = 0x9) (hn : w % 16 ≠ 0) :
    unknownWord w = true := by
  rcases hc with hc | hc <;> simp [unknownWord, hc, hn]

end Sys2Proof
end

section
/-! PROOFS. The statements of the family 40_control_flow. -/

namespace Sys2Proof.Proofs

open Sys2Proof.Machine

/-- Settles O6, by the depth. -/
theorem retPopsOrUnderflows : Obligations.RetPopsOrUnderflows := by
  refine ⟨decodesTo_iff_encode.mpr rfl, fun s => ⟨exec_ret_empty, fun k hk => ?_⟩⟩
  refine ⟨_, exec_ret_pop hk, rfl, ?_, rfl, fun _ => rfl, fun _ => rfl⟩
  rw [setPc_toNat, BitVec.toNat_add, show Config.insnBytes.toNat = 2 from rfl]
  omega

/-- Settles O7: the literal is below the mask. -/
theorem jpSetsPc : Obligations.JpSetsPc := fun nnn s =>
  ⟨decodesTo_of_encode_wordA 0x1 nnn rfl, _, rfl, setPc_zextAddr_toNat s nnn, onlyPc_setPc s _⟩

/-- Settles O8, by the depth: the slot at the depth gets pc and the other slots keep their content. -/
theorem callPushesOrOverflows : Obligations.CallPushesOrOverflows := by
  intro nnn s
  refine ⟨decodesTo_of_encode_wordA 0x2 nnn rfl, fun hfull => ?_, fun k hk => ?_⟩
  · have hword : encode (.call nnn) = BitVec.ofNat 16 (0x2000 + nnn.toNat) := wordA_eq_ofNat 0x2 nnn
    rw [exec_call_full nnn hfull, hword]
    rfl
  · have hroom : s.depth.val < 16 := hk ▸ k.isLt
    have hslot : (s.stack.set s.depth.val s.pc hroom)[k] = s.pc := by simp [hk]
    have hothers : ∀ j : Fin 16, j ≠ k → (s.stack.set s.depth.val s.pc hroom)[j] = s.stack[j] := by
      intro j hj
      have hne : k.val ≠ j.val := fun h => hj (Fin.ext h.symm)
      simp [hk, hne]
    exact ⟨_, exec_call_push nnn hroom, setPc_zextAddr_toNat _ nnn, congrArg (· + 1) hk, hslot,
      (congrArg BitVec.toNat hslot).trans_lt, hothers, rfl, fun _ => rfl, fun _ => rfl⟩

/-- Settles O12: the CALL pushes pc at its depth, and the RET pops that slot. -/
theorem callReturnRoundTrip : Obligations.CallReturnRoundTrip := by
  intro nnn s t u k hk ht hdepth hentry
  obtain ⟨-, -, hpush⟩ := callPushesOrOverflows nnn s
  obtain ⟨t', ht', -, htdepth, htentry, -⟩ := hpush k hk
  cases ht.symm.trans ht'
  obtain ⟨-, hpop⟩ := retPopsOrUnderflows.2 u
  obtain ⟨v, hv, hvdepth, hvpc, -⟩ := hpop k (hdepth ▸ htdepth)
  refine ⟨v, hv, ?_, Fin.ext (hvdepth.trans hk.symm)⟩
  rw [hvpc, hentry, htentry]

/-- Settles O9: both are skips. -/
theorem literalSkips : Obligations.LiteralSkips := fun x kk s =>
  ⟨decodesTo_of_encode_wordXK 0x3 x kk rfl, decodesTo_of_encode_wordXK 0x4 x kk rfl,
    ⟨_, rfl, pcMoves_skip_eq s _ _, onlyPc_skip _ s⟩, ⟨_, rfl, pcMoves_skip_ne s _ _, onlyPc_skip _ s⟩⟩

/-- Settles O10: both are skips, and the decoder rejects the unknown words. -/
theorem registerSkips : Obligations.RegisterSkips := by
  intro x y s
  refine ⟨decodesTo_of_encode_wordXY 0x5 x y 0 rfl, decodesTo_of_encode_wordXY 0x9 x y 0 rfl, fun n hn w hw => ?_,
    ⟨_, rfl, pcMoves_skip_eq s _ _, onlyPc_skip _ s⟩, ⟨_, rfl, pcMoves_skip_ne s _ _, onlyPc_skip _ s⟩⟩
  have hn0 : n.toNat ≠ 0 := fun h => hn (BitVec.eq_of_toNat_eq h)
  exact (unknownWord_iff_decode w).mp (unknownWord_of_category_5_or_9 (by omega) (by omega))

/-- Settles O11: the sum of two zero-extended values does not wrap at 16 bits, and the pc write masks it. -/
theorem jpV0AddsOffset : Obligations.JpV0AddsOffset := by
  intro nnn s
  refine ⟨decodesTo_of_encode_wordA 0xB nnn rfl, _, rfl, ?_, onlyPc_setPc s _⟩
  rw [setPc_toNat, BitVec.toNat_add, zextAddr_toNat, zextByte_toNat]
  omega

end Sys2Proof.Proofs
end

section
/-! SUPPORT. The two shapes of the arithmetic instructions as frames of Claims, their flags and results as facts about
numbers, and RND by its draw (41_alu.md R130 to R145). -/

namespace Sys2Proof.Machine

/-! ### The two shapes -/

theorem memorySame_of_registers_and_pc {s t : State} (h : t = { s with v := t.v, pc := t.pc }) : MemorySame s t :=
  have hmem : t.mem = s.mem := by rw [h]
  memRead_of_mem_eq hmem

theorem onlyRegister_of_writeAdvance {s t : State} {x : Reg} {r : Byte} (h : writeAdvance s x r = .next t) :
    readV t x = r ∧ OnlyRegister s t x := by
  obtain ⟨t', ht', hx, hothers, hpc, hrest⟩ := writeAdvance_spec s x r
  cases h.symm.trans ht'
  exact ⟨hx, hrest, hothers, memorySame_of_registers_and_pc hrest, hpc⟩

/-- The shape without a flag, as a frame. -/
theorem writeAdvance_onlyRegister (s : State) (x : Reg) (r : Byte) :
    ∃ t, writeAdvance s x r = .next t ∧ readV t x = r ∧ OnlyRegister s t x :=
  ⟨_, rfl, onlyRegister_of_writeAdvance rfl⟩

/-- The shape with a flag, as a result and a flag: with x = 15 the result is lost (R22). -/
theorem writeFlagAdvance_resultAndFlag (s : State) (x : Reg) {r : Byte} {f : Bool} {n : Nat} {p : Prop}
    (hr : r.toNat = n) (hf : f = true ↔ p) :
    ∃ t, writeFlagAdvance s x r f = .next t ∧ ResultAndFlag s t x n p := by
  obtain ⟨t, ht, hv, hpc, hrest⟩ := writeFlagAdvance_spec s x r f
  have hflag : (readV t regVF).toNat = if f then 1 else 0 := by rw [hv, if_pos rfl, flagByte_toNat]
  refine ⟨t, ht, ?_, ?_, ?_, ?_, hrest, memorySame_of_registers_and_pc hrest, hpc⟩
  · intro hx
    rw [hv, if_neg hx, if_pos rfl, hr]
  · intro hp
    rw [hflag, if_pos (hf.mpr hp)]
  · intro hp
    rw [hflag, if_neg (hp ∘ hf.mp)]
  · intro y hyx hyF
    rw [hv, if_neg hyF, if_neg hyx]

/-! ### Flags and results as numbers -/

theorem carryOut_iff (a b : Byte) : carryOut a b = true ↔ 255 < a.toNat + b.toNat := decide_eq_true_iff

theorem notBorrow_iff (a b : Byte) : notBorrow a b = true ↔ b.toNat ≤ a.toNat := decide_eq_true_iff

theorem lostRight_iff (a : Byte) : lostRight a = true ↔ a.toNat % 2 = 1 := by
  rw [lostRight, BitVec.getLsbD, Nat.testBit_zero, decide_eq_true_iff]

theorem lostLeft_iff (a : Byte) : lostLeft a = true ↔ 128 ≤ a.toNat := by
  rw [lostLeft, ← BitVec.msb_eq_getLsbD_last, BitVec.msb_eq_decide, decide_eq_true_iff]

/-- A difference of bytes is the difference modulo 256 (R141). -/
theorem byte_sub_toNat (a b : Byte) : (a - b).toNat = (a.toNat + 256 - b.toNat) % 256 := by
  have := b.isLt
  rw [BitVec.toNat_sub]
  omega

theorem byte_shiftRight_one_toNat (a : Byte) : (a >>> 1).toNat = a.toNat / 2 := by
  rw [BitVec.toNat_ushiftRight, Nat.shiftRight_one]

theorem byte_shiftLeft_one_toNat (a : Byte) : (a <<< 1).toNat = a.toNat * 2 % 256 := by
  rw [BitVec.toNat_shiftLeft, Nat.shiftLeft_eq]

/-! ### Subtractions and shifts -/

/-- The shared shape of SUB and SUBN: `a - b` to Vx, not borrow to VF (R137, R139). -/
theorem sub_resultAndFlag (s : State) (x : Reg) (a b : Byte) :
    ∃ t, writeFlagAdvance s x (a - b) (notBorrow a b) = .next t ∧
      ResultAndFlag s t x ((a.toNat + 256 - b.toNat) % 256) (b.toNat ≤ a.toNat) :=
  writeFlagAdvance_resultAndFlag s x (byte_sub_toNat a b) (notBorrow_iff a b)

/-- A right shift halves its operand, under either setting of SHIFT_SOURCE (R138). -/
theorem shiftRight_resultAndFlag (src : ShiftSource) (x y : Reg) (s : State) :
    ∃ t, shiftRight src x y s = .next t ∧
      ResultAndFlag s t x ((shiftOperand src s x y).toNat / 2) ((shiftOperand src s x y).toNat % 2 = 1) :=
  writeFlagAdvance_resultAndFlag s x (byte_shiftRight_one_toNat _) (lostRight_iff _)

/-- A left shift doubles its operand modulo 256, under either setting of SHIFT_SOURCE (R140). -/
theorem shiftLeft_resultAndFlag (src : ShiftSource) (x y : Reg) (s : State) :
    ∃ t, shiftLeft src x y s = .next t ∧
      ResultAndFlag s t x ((shiftOperand src s x y).toNat * 2 % 256) (128 ≤ (shiftOperand src s x y).toNat) :=
  writeFlagAdvance_resultAndFlag s x (byte_shiftLeft_one_toNat _) (lostLeft_iff _)

/-! ### RND -/

/-- RND is the shape without a flag, on the state its draw leaves (R145). -/
theorem exec_rnd_of_drawRand {s u : State} {r : Byte} (h : drawRand s = (r, u)) (x : Reg) (kk : Byte) :
    exec (.rnd x kk) s = writeAdvance u x (r &&& kk) := by
  rw [exec, execRnd, h]

end Sys2Proof.Machine

namespace Sys2Proof

/-- A word of format XY as category and sub-selector, then its registers (R74). -/
theorem decodesTo_of_encode_wordXY_selector {i : Instr} (c : Nibble) (x y : Reg) (n : Nibble)
    (h : encode i = wordXY c x y n) : DecodesTo (c.toNat * 4096 + n.toNat + x.val * 256 + y.val * 16) i := by
  have hsum : c.toNat * 4096 + n.toNat + x.val * 256 + y.val * 16 =
      c.toNat * 4096 + x.val * 256 + y.val * 16 + n.toNat := by omega
  rw [hsum]
  exact decodesTo_of_encode_wordXY c x y n h

end Sys2Proof
end

section
/-! PROOFS. The statements of the family 41_alu. -/

namespace Sys2Proof.Proofs

open Sys2Proof.Machine

/-- Settles O14: both are writes of one register. -/
theorem loadsWriteTheirDestination : Obligations.LoadsWriteTheirDestination :=
  ⟨fun x kk s => ⟨decodesTo_of_encode_wordXK 0x6 x kk rfl, writeAdvance_onlyRegister s x kk⟩,
    fun x y s => ⟨decodesTo_of_encode_wordXY 0x8 x y 0x0 rfl, writeAdvance_onlyRegister s x (readV s y)⟩⟩

/-- Settles O15: the sum of two bytes wraps at 8 bits. -/
theorem addByteWraps : Obligations.AddByteWraps := by
  intro x kk s
  obtain ⟨t, ht, hx, hframe⟩ := writeAdvance_onlyRegister s x (readV s x + kk)
  exact ⟨decodesTo_of_encode_wordXK 0x7 x kk rfl, t, ht, hx ▸ BitVec.toNat_add _ _, hframe⟩

/-- Settles O16: each writes the bitwise result to one register. -/
theorem logicActsBitwise : Obligations.LogicActsBitwise := by
  intro x y s
  obtain ⟨tor, hor, horx, horFrame⟩ := writeAdvance_onlyRegister s x (readV s x ||| readV s y)
  obtain ⟨tand, hand, handx, handFrame⟩ := writeAdvance_onlyRegister s x (readV s x &&& readV s y)
  obtain ⟨txor, hxor, hxorx, hxorFrame⟩ := writeAdvance_onlyRegister s x (readV s x ^^^ readV s y)
  exact ⟨decodesTo_of_encode_wordXY_selector 0x8 x y 0x1 rfl, decodesTo_of_encode_wordXY_selector 0x8 x y 0x2 rfl,
    decodesTo_of_encode_wordXY_selector 0x8 x y 0x3 rfl,
    ⟨tor, hor, horFrame, fun _ _ => horx ▸ BitVec.getLsbD_or⟩,
    ⟨tand, hand, handFrame, fun _ _ => handx ▸ BitVec.getLsbD_and⟩,
    ⟨txor, hxor, hxorFrame, fun _ _ => hxorx ▸ BitVec.getLsbD_xor⟩⟩

/-- Settles O17: the sum of two bytes wraps at 8 bits, and the carry is that of the exact sum. -/
theorem addRegCarries : Obligations.AddRegCarries := fun x y s =>
  ⟨decodesTo_of_encode_wordXY_selector 0x8 x y 0x4 rfl,
    writeFlagAdvance_resultAndFlag s x (BitVec.toNat_add _ _) (carryOut_iff _ _)⟩

/-- Settles O18: SUBN is SUB with the operands swapped. -/
theorem subtractionsBorrow : Obligations.SubtractionsBorrow := fun x y s =>
  ⟨decodesTo_of_encode_wordXY_selector 0x8 x y 0x5 rfl, decodesTo_of_encode_wordXY_selector 0x8 x y 0x7 rfl,
    sub_resultAndFlag s x (readV s x) (readV s y), sub_resultAndFlag s x (readV s y) (readV s x)⟩

/-- Settles O19: the instructions are the shared operations under the default setting. -/
theorem shiftsLoseABit : Obligations.ShiftsLoseABit := fun x y s =>
  ⟨decodesTo_of_encode_wordXY_selector 0x8 x y 0x6 rfl, decodesTo_of_encode_wordXY_selector 0x8 x y 0xE rfl,
    shiftRight_resultAndFlag .vx x y s, shiftLeft_resultAndFlag .vx x y s,
    shiftRight_resultAndFlag .vy x y s, shiftLeft_resultAndFlag .vy x y s⟩

/-- Settles O20, by where the draw comes from: RND writes one register of the state the draw leaves, in which only the
draw's own fields differ. -/
theorem rndMasksOneDraw : Obligations.RndMasksOneDraw := by
  intro x kk s
  refine ⟨decodesTo_of_encode_wordXK 0xC x kk rfl, ?_⟩
  rcases drawRand_cases s with ⟨r, hr, hdraw⟩ | ⟨hr, hdraw⟩
  · obtain ⟨hx, hframe⟩ := onlyRegister_of_writeAdvance (s := { s with draw := none }) (x := x) (r := r &&& kk) rfl
    exact ⟨_, r, exec_rnd_of_drawRand hdraw x kk, hx, .inl ⟨hr, rfl, rfl⟩, rfl, hframe.others, hframe.memory,
      hframe.pc⟩
  · obtain ⟨hx, hframe⟩ := onlyRegister_of_writeAdvance (s := { s with drawCount := s.drawCount + 1 }) (x := x)
      (r := Config.randByte s.drawCount &&& kk) rfl
    exact ⟨_, _, exec_rnd_of_drawRand hdraw x kk, hx, .inr ⟨hr, hr, rfl, rfl⟩, rfl, hframe.others, hframe.memory,
      hframe.pc⟩

end Sys2Proof.Proofs
end

section
/-! SUPPORT. A draw in terms of the cells its sprite covers, a repeated draw, and the words of one register and a
selector (42_display.md R170 to R175). -/

namespace Sys2Proof.Machine

/-! ### The cells a sprite covers (R171, R172) -/

section

variable {s : State} {x y : Reg} {n : Nibble} {col : Fin 64} {row : Fin 32}

/-- The cells DRW plots are the ones the sprite covers. -/
theorem mem_spriteCells_iff_covers :
    (col, row) ∈ spriteCells (readV s x) (readV s y) 0 (memReadList s s.i n.toNat) ↔
      SpriteCovers s x y n.toNat col row := by
  rw [mem_spriteCells]
  constructor
  · rintro ⟨k, hk, b, hb, hbit, hcol, hrow⟩
    rw [memReadList_getElem] at hbit
    rw [memReadList_length] at hk
    exact ⟨k, b, hk, hb, hbit, hcol, by rwa [Nat.zero_add] at hrow⟩
  · rintro ⟨k, b, hk, hb, hbit, hcol, hrow⟩
    refine ⟨k, by rwa [memReadList_length], b, hb, ?_, hcol, by rwa [Nat.zero_add]⟩
    rwa [memReadList_getElem]

/-- Two sprites of the same bytes at the same place cover the same cells. -/
theorem spriteCovers_congr {u : State} {x' y' : Reg} (hi : u.i = s.i) (hx : readV u x' = readV s x)
    (hy : readV u y' = readV s y)
    (hbytes : ∀ k < n.toNat, memRead u (s.i + BitVec.ofNat 16 k) = memRead s (s.i + BitVec.ofNat 16 k)) :
    SpriteCovers u x' y' n.toNat col row ↔ SpriteCovers s x y n.toNat col row := by
  rw [SpriteCovers, SpriteCovers, hi, hx, hy]
  refine exists_congr fun k => exists_congr fun b => and_congr_right fun hk => ?_
  rw [hbytes k hk]

/-- Of the sprite's bits only one can map to a cell, as a sprite has at most 15 rows of 8 columns. -/
theorem spriteCovers_iff_bit {k b : Nat} (hk : k < n.toNat) (hb : b < 8)
    (hcol : col.val = ((readV s x).toNat + b) % 64) (hrow : row.val = ((readV s y).toNat + k) % 32) :
    SpriteCovers s x y n.toNat col row ↔ (memRead s (s.i + BitVec.ofNat 16 k)).getLsbD (7 - b) = true := by
  constructor
  · rintro ⟨k', b', hk', hb', hbit, hcol', hrow'⟩
    obtain rfl : k' = k := by omega
    obtain rfl : b' = b := by omega
    exact hbit
  · intro hbit
    exact ⟨k, b, hk, hb, hbit, hcol, hrow⟩

/-- A sprite covers a cell exactly when one of its bits is set. -/
theorem exists_spriteCovers_iff :
    (∃ col row, SpriteCovers s x y n.toNat col row) ↔
      ∃ k b, k < n.toNat ∧ b < 8 ∧ (memRead s (s.i + BitVec.ofNat 16 k)).getLsbD b = true := by
  constructor
  · rintro ⟨col, row, k, b, hk, hb, hbit, -, -⟩
    exact ⟨k, 7 - b, hk, by omega, hbit⟩
  · rintro ⟨k, b, hk, hb, hbit⟩
    refine ⟨Fin.ofNat 64 _, Fin.ofNat 32 _, k, 7 - b, hk, by omega, ?_, rfl, rfl⟩
    rwa [show 7 - (7 - b) = b by omega]

/-! ### The canvas a draw leaves (R171) -/

/-- A draw XORs into each cell whether the sprite covers it. -/
theorem drawFrom_cell {d : Bool} (h : SpriteCovers s x y n.toNat col row ↔ d = true) :
    (drawFrom s x y n).fb.cell col row = (s.fb.cell col row ^^ d) := by
  obtain ⟨hcell, -⟩ := drawSprite_spec (readV s x) (readV s y) (memReadList s s.i n.toNat) s.fb
    (by rw [memReadList_length]; omega)
  have hmem : decide ((col, row) ∈ spriteCells (readV s x) (readV s y) 0 (memReadList s s.i n.toNat)) = d :=
    Bool.eq_iff_iff.mpr (decide_eq_true_iff.trans (mem_spriteCells_iff_covers.trans h))
  rw [drawFrom, hcell (col, row), hmem]

theorem drawFrom_cell_of_covers (h : SpriteCovers s x y n.toNat col row) :
    (drawFrom s x y n).fb.cell col row = !s.fb.cell col row := by
  rw [drawFrom_cell (iff_of_true h rfl), Bool.xor_true]

theorem drawFrom_cell_of_not_covers (h : ¬SpriteCovers s x y n.toNat col row) :
    (drawFrom s x y n).fb.cell col row = s.fb.cell col row := by
  rw [drawFrom_cell (iff_of_false h Bool.false_ne_true), Bool.xor_false]

/-- A draw collides exactly when the sprite covers a set cell. -/
theorem drawFrom_hit (s : State) (x y : Reg) (n : Nibble) :
    (drawFrom s x y n).hit = true ↔ ∃ col row, SpriteCovers s x y n.toNat col row ∧ s.fb.cell col row = true := by
  obtain ⟨-, hhit⟩ := drawSprite_spec (readV s x) (readV s y) (memReadList s s.i n.toNat) s.fb
    (by rw [memReadList_length]; omega)
  rw [drawFrom, hhit, Prod.exists]
  simp only [mem_spriteCells_iff_covers]

end

/-! ### A draw of the same cells on the screen a draw left (R173) -/

section

variable {s u : State} {x y x' y' : Reg} {n : Nibble} (hfb : u.fb = (drawFrom s x y n).fb)
  (hcovers : ∀ {col row}, SpriteCovers u x' y' n.toNat col row ↔ SpriteCovers s x y n.toNat col row)

include hfb hcovers

/-- The second draw inverts the cells the first inverted. -/
theorem drawFrom_again_fb : (drawFrom u x' y' n).fb = s.fb := by
  apply Framebuffer.ext_cell
  intro col row
  by_cases h : SpriteCovers s x y n.toNat col row
  · rw [drawFrom_cell_of_covers (hcovers.mpr h), hfb, drawFrom_cell_of_covers h, Bool.not_not]
  · rw [drawFrom_cell_of_not_covers (hcovers.not.mpr h), hfb, drawFrom_cell_of_not_covers h]

/-- The second draw finds set the covered cells the first found clear. -/
theorem drawFrom_again_hit :
    (drawFrom u x' y' n).hit = true ↔
      ∃ col row, SpriteCovers s x y n.toNat col row ∧ s.fb.cell col row = false := by
  rw [drawFrom_hit]
  refine exists_congr fun col => exists_congr fun row => ?_
  rw [hcovers, hfb]
  refine and_congr_right fun h => ?_
  rw [drawFrom_cell_of_covers h, Bool.not_eq_true']

end

/-! ### DRW -/

theorem flagByte_toNat_eq_one (f : Bool) : (flagByte f).toNat = 1 ↔ f = true := by cases f <;> decide

theorem flagByte_toNat_eq_zero (f : Bool) : (flagByte f).toNat = 0 ↔ ¬f = true := by cases f <;> decide

/-- DRW leaves the canvas on the screen and its collision in VF, marks the screen dirty and moves pc by 2; nothing else
changes (R171). -/
theorem exec_drw_spec (x y : Reg) (n : Nibble) (s : State) :
    ∃ t, exec (.drw x y n) s = .next t ∧ t.fb = (drawFrom s x y n).fb ∧ t.dirty = true ∧
      ((readV t regVF).toNat = 1 ↔ (drawFrom s x y n).hit = true) ∧
      ((readV t regVF).toNat = 0 ↔ ¬(drawFrom s x y n).hit = true) ∧
      (∀ r, r ≠ regVF → readV t r = readV s r) ∧ PcMoves s t 2 ∧
      t = { s with v := t.v, fb := t.fb, dirty := t.dirty, pc := t.pc } := by
  refine ⟨_, rfl, rfl, rfl, ?_, ?_, fun r hr => ?_, advance_pc _, rfl⟩
  · rw [advance_def, readV_setPc, writeFlag, readV_writeV_same, flagByte_toNat_eq_one]
  · rw [advance_def, readV_setPc, writeFlag, readV_writeV_same, flagByte_toNat_eq_zero]
  · rw [advance_def, readV_setPc, writeFlag, readV_writeV_other _ _ hr, readV_setFb]

end Sys2Proof.Machine

namespace Sys2Proof

/-- A word of format X as category and sub-selector, then its register (R74). -/
theorem decodesTo_of_encode_wordXK_selector {i : Instr} (c : Nibble) (x : Reg) (kk : Byte)
    (h : encode i = wordXK c x kk) : DecodesTo (c.toNat * 4096 + kk.toNat + x.val * 256) i := by
  rw [Nat.add_right_comm]
  exact decodesTo_of_encode_wordXK c x kk h

end Sys2Proof
end

section
/-! PROOFS. The statements of the family 42_display. -/

namespace Sys2Proof.Proofs

open Sys2Proof.Machine

/-- Settles O22: CLS is a write of the clear screen. -/
theorem clsClearsTheScreen : Obligations.ClsClearsTheScreen :=
  ⟨decodesTo_iff_encode.mpr rfl, fun _ =>
    ⟨_, rfl, Framebuffer.cell_clear, rfl, advance_pc _, rfl, fun _ => rfl, fun _ => rfl⟩⟩

/-- Settles O27: LD F is a write of the glyph's address to I. -/
theorem ldFPointsAtTheGlyph : Obligations.LdFPointsAtTheGlyph := fun x s =>
  ⟨decodesTo_of_encode_wordXK_selector 0xF x 0x29 rfl, _, rfl, glyphAddress_toNat (readV s x), advance_pc _, rfl,
    fun _ => rfl, fun _ => rfl⟩

/-- Settles O23: DRW's canvas is the screen with the covered cells inverted, and its collision says whether one was
set. -/
theorem drwXorsTheSprite : Obligations.DrwXorsTheSprite := by
  intro x y n s
  obtain ⟨t, ht, hfb, hdirty, hone, hzero, hothers, hpc, hrest⟩ := exec_drw_spec x y n s
  have hmem : t.mem = s.mem := by rw [hrest]
  rw [drawFrom_hit] at hone hzero
  refine ⟨decodesTo_of_encode_wordXY 0xD x y n rfl, t, ht, fun col row => ?_, hone.mpr, hzero.mpr, hothers, hdirty, hpc,
    memRead_of_mem_eq hmem, hrest⟩
  rw [hfb]
  exact ⟨drawFrom_cell_of_covers, drawFrom_cell_of_not_covers⟩

/-- Settles O58: the second draw finds set the covered cells that were clear. When the first draw found no covered cell
set, every covered cell was clear, and one is covered when a bit is set. -/
theorem drwTwiceFlagsTheClearCells : Obligations.DrwTwiceFlagsTheClearCells := by
  intro x y x' y' n s t u ht hfb hi hx hy hbytes
  obtain ⟨t', ht', hfbt, -, -, hzerot, -⟩ := exec_drw_spec x y n s
  cases ht.symm.trans ht'
  obtain ⟨v, hv, hfbv, -, hone, hzero, -⟩ := exec_drw_spec x' y' n u
  have hdrawn : u.fb = (drawFrom s x y n).fb := hfb.trans hfbt
  have hcovers {col row} := spriteCovers_congr (col := col) (row := row) hi hx hy hbytes
  rw [drawFrom_again_hit hdrawn hcovers] at hone hzero
  rw [drawFrom_hit] at hzerot
  refine ⟨v, hv, hfbv.trans (drawFrom_again_fb hdrawn hcovers), hone.mpr, hzero.mpr, fun hVF => ?_⟩
  have hclear : ∀ col row, SpriteCovers s x y n.toNat col row → s.fb.cell col row = false := fun col row h =>
    Bool.eq_false_iff.mpr fun hset => hzerot.mp hVF ⟨col, row, h, hset⟩
  rw [hone, ← exists_spriteCovers_iff (x := x) (y := y)]
  exact exists_congr fun col => exists_congr fun row => and_iff_left_of_imp (hclear col row)

/-- Settles O24, as part of O58. -/
theorem drwTwiceRestoresTheScreen : Obligations.DrwTwiceRestoresTheScreen := by
  intro x y x' y' n s t u ht hfb hi hx hy hbytes
  obtain ⟨v, hv, hfbv, -⟩ := drwTwiceFlagsTheClearCells x y x' y' n s t u ht hfb hi hx hy hbytes
  exact ⟨v, hv, hfbv⟩

/-- Refutes O25: the font's byte 0x20 at 0x005 is drawn on the one set cell it covers. The first draw clears the cell, so
the second collides with nothing and leaves VF = 0, though the sprite has a set bit. -/
theorem not_drwTwiceSecondFlagIffAnyBit : ¬ Obligations.DrwTwiceSecondFlagIffAnyBit := by
  intro h
  obtain ⟨-, hflag⟩ := h 0 1 0 1 1 { State.reset with i := 0x005, fb := Framebuffer.clear.toggle 2 0 } _ _ _ rfl rfl rfl
    rfl rfl (fun _ _ => rfl) rfl
  have hVF := hflag.mpr ⟨0, 5, by decide, by decide, by decide⟩
  exact absurd hVF (by decide)

/-- Settles O26: from column 63, offset 0 is column 63, offsets 1 to 7 are columns 0 to 6, and no offset is another
column. -/
theorem spriteWrapsAtColumn63 : Obligations.SpriteWrapsAtColumn63 := by
  intro x y n s k row hx hk hrow
  obtain ⟨t, ht, hfb, -⟩ := exec_drw_spec x y n s
  have hrow' : row.val = ((readV s y).toNat + k) % 32 := by omega
  refine ⟨t, ht, ?_, fun c hc => ?_, fun c hlow hhigh => ?_⟩ <;> rw [hfb]
  · exact drawFrom_cell (spriteCovers_iff_bit (b := 0) hk (by omega) hx.symm hrow')
  · have hcol : c.val = ((readV s x).toNat + (c.val + 1)) % 64 := by omega
    rw [show 6 - c.val = 7 - (c.val + 1) by omega]
    exact drawFrom_cell (spriteCovers_iff_bit hk (by omega) hcol hrow')
  · refine drawFrom_cell_of_not_covers ?_
    rintro ⟨-, b, -, hb, -, hcol, -⟩
    omega

end Sys2Proof.Proofs
end

section
/-! SUPPORT. What a store, a block load and an index sum leave, each with the advance of pc that ends its instruction
(43_index_memory.md R191 to R196). -/

namespace Sys2Proof.Machine

/-! ### Stores (R194, R195) -/

/-- From `s` to `t` only memory and pc changed, and pc by one instruction. -/
def OnlyMemory (s t : State) : Prop := t = { s with mem := t.mem, pc := t.pc } ∧ RegistersSame s t ∧ PcMoves s t 2

section

variable (s : State) (a : Word) (bs : List Byte)

theorem onlyMemory_advance_memWriteList : OnlyMemory s (advance (memWriteList s a bs)) := by
  refine ⟨?_, readV_memWriteList s a bs, ?_⟩
  · rw [memWriteList_frame]
    rfl
  · rw [PcMoves, advance_pc, memWriteList_frame]

theorem memRead_advance_memWriteList (k : Nat) (hk : k < bs.length) (hlen : bs.length ≤ 4096) :
    memRead (advance (memWriteList s a bs)) (a + BitVec.ofNat 16 k) = bs[k] :=
  memRead_memWriteList s a _ bs k hk hlen rfl

theorem memRead_advance_memWriteList_other (c : Word)
    (h : ∀ k < bs.length, memIndex c ≠ memIndex (a + BitVec.ofNat 16 k)) :
    memRead (advance (memWriteList s a bs)) c = memRead s c :=
  memRead_memWriteList_other s a c bs h

end

@[simp] theorem bcdDigits_length (b : Byte) : (bcdDigits b).length = 3 := rfl

/-- The digits of a byte are those of its number (R194). -/
theorem bcdDigits_toNat (b : Byte) :
    (bcdDigits b)[0].toNat = b.toNat / 100 ∧ (bcdDigits b)[1].toNat = b.toNat / 10 % 10 ∧
      (bcdDigits b)[2].toNat = b.toNat % 10 :=
  ⟨rfl, rfl, rfl⟩

/-! ### Block loads (R196) -/

/-- A block load gives V0 to Vx the bytes from the address on, and keeps the registers above Vx. -/
theorem readV_advance_loadBlock (s : State) (a : Word) (x y : Reg) :
    readV (advance (loadBlock s a 0 (x.val + 1))) y =
      if y ≤ x then memRead s (a + BitVec.ofNat 16 y.val) else readV s y := by
  have hplace : (0 ≤ y.val ∧ y.val < 0 + (x.val + 1)) ↔ y ≤ x := by rw [Fin.le_def]; omega
  rw [advance_def, readV_setPc, readV_loadBlock s a 0 _ (by omega), Nat.sub_zero]
  simp only [hplace]

/-- A block load changes registers and pc only. -/
theorem advance_loadBlock_frame (s : State) (a : Word) (n : Nat) :
    advance (loadBlock s a 0 n) =
      { s with v := (advance (loadBlock s a 0 n)).v, pc := (advance (loadBlock s a 0 n)).pc } := by
  rw [loadBlock_frame]
  rfl

theorem pcMoves_advance_loadBlock (s : State) (a : Word) (n : Nat) : PcMoves s (advance (loadBlock s a 0 n)) 2 := by
  rw [PcMoves, advance_pc, loadBlock_frame]

/-! ### The index sum (R191) -/

theorem indexCarry_iff (limit : Nat) (i : Word) (b : Byte) :
    indexCarry limit i b = true ↔ limit < i.toNat + b.toNat := decide_eq_true_iff

/-- ADD I under a carry limit: the truncated sum to I, the carry of the exact sum to VF, whatever `x` is. -/
theorem addIndex_spec (limit : Nat) (x : Reg) (s : State) :
    ∃ t, addIndex limit x s = .next t ∧ t = { s with i := t.i, v := t.v, pc := t.pc } ∧
      t.i.toNat = (s.i.toNat + (readV s x).toNat) % 4096 ∧
      (readV t regVF).toNat = (if limit < s.i.toNat + (readV s x).toNat then 1 else 0) ∧
      (∀ y, y ≠ regVF → readV t y = readV s y) ∧ PcMoves s t 2 ∧ MemorySame s t := by
  refine ⟨_, rfl, rfl, indexSum_toNat _ _, ?_, fun y hy => ?_, advance_pc _, fun _ => rfl⟩
  · rw [advance_def, readV_setPc, writeFlag, readV_writeV_same, flagByte_toNat]
    simp only [indexCarry_iff]
  · rw [advance_def, readV_setPc, writeFlag, readV_writeV_other _ _ hy, readV_setI]

end Sys2Proof.Machine
end

section
/-! PROOFS. The statements of the family 43_index_memory. -/

namespace Sys2Proof.Proofs

open Sys2Proof.Machine

/-- Settles O29: the literal is zero-extended. -/
theorem ldITakesTheLiteral : Obligations.LdITakesTheLiteral := fun nnn _ =>
  ⟨decodesTo_of_encode_wordA 0xA nnn rfl, _, rfl, zextAddr_toNat nnn, advance_pc _, rfl, fun _ => rfl, fun _ => rfl⟩

/-- Settles O30: the instruction is the shared operation under the default limit. -/
theorem addITruncatesAndFlags : Obligations.AddITruncatesAndFlags := fun x s =>
  ⟨decodesTo_of_encode_wordXK_selector 0xF x 0x1E rfl, addIndex_spec fx1eCarryLimit x s,
    fun limit => addIndex_spec limit x s⟩

/-- Settles O31: LD B is a store of the three digits. -/
theorem ldBStoresThreeDigits : Obligations.LdBStoresThreeDigits := by
  intro x s
  obtain ⟨hundreds, tens, ones⟩ := bcdDigits_toNat (readV s x)
  have hstored (k : Nat) (hk : k < 3) := memRead_advance_memWriteList s s.i (bcdDigits (readV s x)) k hk (by simp)
  refine ⟨decodesTo_of_encode_wordXK_selector 0xF x 0x33 rfl, _, rfl, ?_, ?_, ?_,
    memRead_advance_memWriteList_other s s.i (bcdDigits (readV s x)), onlyMemory_advance_memWriteList s s.i _⟩
  · rw [← hundreds, ← hstored 0 (by decide), BitVec.add_zero]
  · exact (congrArg BitVec.toNat (hstored 1 (by decide))).trans tens
  · exact (congrArg BitVec.toNat (hstored 2 (by decide))).trans ones

/-- Settles O32: LD [I], Vx is a store of the register block, whose k-th byte is Vk. -/
theorem blockStoreStoresInclusive : Obligations.BlockStoreStoresInclusive := by
  intro x s
  refine ⟨decodesTo_of_encode_wordXK_selector 0xF x 0x55 rfl, _, rfl,
    fun k hk => memRead_registerBlock_stored s hk rfl, fun c hc => ?_, onlyMemory_advance_memWriteList s s.i _⟩
  refine memRead_advance_memWriteList_other s s.i _ c fun k hk => ?_
  rw [registerBlock_length] at hk
  exact hc ⟨k, by omega⟩ (Nat.le_of_lt_succ hk)

/-- Settles O33, by whether a register is in the block. -/
theorem blockLoadLoadsInclusive : Obligations.BlockLoadLoadsInclusive := by
  intro x s
  have hframe := advance_loadBlock_frame s s.i (x.val + 1)
  have hmem : (advance (loadBlock s s.i 0 (x.val + 1))).mem = s.mem := by rw [hframe]
  refine ⟨decodesTo_of_encode_wordXK_selector 0xF x 0x65 rfl, _, rfl, fun k hk => ?_, fun k hk => ?_, hframe,
    memRead_of_mem_eq hmem, pcMoves_advance_loadBlock s s.i _⟩
  · rw [readV_advance_loadBlock, if_pos hk]
  · rw [readV_advance_loadBlock, if_neg hk.not_ge]

/-- Settles O34: the load reads at the addresses of the store, and finds there what it wrote. -/
theorem blockLoadInvertsBlockStore : Obligations.BlockLoadInvertsBlockStore := by
  intro x s t u ht hmem hi
  obtain ⟨-, t', ht', hstored, -, hrest, -⟩ := blockStoreStoresInclusive x s
  cases ht.symm.trans ht'
  obtain ⟨-, v, hv, hloaded, -⟩ := blockLoadLoadsInclusive x u
  have hti : t.i = s.i := by rw [hrest]
  refine ⟨v, hv, fun k hk => ?_⟩
  rw [hloaded k hk, hi, hti, memRead_of_mem_eq hmem, hstored k hk]

end Sys2Proof.Proofs
end

section
/-! SUPPORT. What a tick's instruction and a tick's completed wait find and leave: the latch after the key events, the timers
after the timer step, and the presentation that ends the tick (44_timers_keys.md R210 to R215, 60_exceptions.md R234 to
R240). -/

namespace Sys2Proof.Machine

/-! ### Presentation leaves everything but the display's record (R240) -/

@[simp] theorem present_v (s : State) : (present s).v = s.v := by rw [present_frame]
@[simp] theorem present_i (s : State) : (present s).i = s.i := by rw [present_frame]
@[simp] theorem present_pc (s : State) : (present s).pc = s.pc := by rw [present_frame]
@[simp] theorem present_stack (s : State) : (present s).stack = s.stack := by rw [present_frame]
@[simp] theorem present_depth (s : State) : (present s).depth = s.depth := by rw [present_frame]
@[simp] theorem present_dt (s : State) : (present s).dt = s.dt := by rw [present_frame]
@[simp] theorem present_st (s : State) : (present s).st = s.st := by rw [present_frame]
@[simp] theorem present_mem (s : State) : (present s).mem = s.mem := by rw [present_frame]
@[simp] theorem present_fb (s : State) : (present s).fb = s.fb := by rw [present_frame]
@[simp] theorem present_key (s : State) : (present s).key = s.key := by rw [present_frame]
@[simp] theorem present_status (s : State) : (present s).status = s.status := by rw [present_frame]

@[simp] theorem readV_present (s : State) (y : Reg) : readV (present s) y = readV s y := readV_of_v_eq (present_v s) y

/-! ### Key events (R235) -/

/-- An event decides its own key's slot, whatever came before. -/
theorem latchAfter_concat (es : List KeyEvent) (e : KeyEvent) (old : Bool) (k : Key) :
    latchAfter (es ++ [e]) old k = if e.key = k then e.down else latchAfter es old k := by
  by_cases h : e.key = k <;> simp [latchAfter, List.filter_append, h]

theorem applyKeyEvents_latch (es : List KeyEvent) (s : State) (k : Key) :
    (applyKeyEvents es s).key[k] = latchAfter es s.key[k] k := by
  induction es using List.reverseRecOn with
  | nil => rfl
  | append_singleton es e ih =>
    have hset : (applyKeyEvents (es ++ [e]) s).key = (applyKeyEvents es s).key.set e.key e.down := by
      simp [applyKeyEvents]
    rw [latchAfter_concat, hset, ← ih]
    simp [Vector.getElem_set, Fin.ext_iff]

/-- Without a key-down there is no first one. -/
theorem firstKeyDown_of_all_up {es : List KeyEvent} (h : ∀ e ∈ es, e.down = false) : firstKeyDown es = none := by
  simpa [firstKeyDown] using h

/-- The first key-down is the one behind key-ups alone. -/
theorem firstKeyDown_append {before : List KeyEvent} (h : ∀ e ∈ before, e.down = false) (k : Key)
    (after : List KeyEvent) : firstKeyDown (before ++ { key := k, down := true } :: after) = some k := by
  have hnone : before.find? (·.down) = none := by simpa using h
  simp [firstKeyDown, List.find?_append, hnone]

/-! ### The timer step (R237) -/

theorem timerStep_dt (c : Bool) (s : State) :
    (timerStep c s).dt.toNat = if c then s.dt.toNat - 1 else s.dt.toNat := by
  cases c with
  | false => rfl
  | true => exact decTimer_toNat s.dt

theorem timerStep_st (c : Bool) (s : State) :
    (timerStep c s).st.toNat = if c then s.st.toNat - 1 else s.st.toNat := by
  cases c with
  | false => rfl
  | true => exact decTimer_toNat s.st

/-! ### The wait (R215) -/

/-- A tick's part of a wait writes the destination, pc and the status only. -/
theorem completeWait_frame (x : Reg) (es : List KeyEvent) (s : State) :
    completeWait x es s =
      { s with v := (completeWait x es s).v, pc := (completeWait x es s).pc, status := (completeWait x es s).status } := by
  cases hk : firstKeyDown es with
  | none => rw [completeWait_none hk]
  | some k => rw [completeWait_some hk]; rfl

theorem completeWait_keeps (x : Reg) (es : List KeyEvent) (s : State) :
    (completeWait x es s).dt = s.dt ∧ (completeWait x es s).st = s.st ∧ (completeWait x es s).i = s.i ∧
      (completeWait x es s).mem = s.mem ∧ (completeWait x es s).stack = s.stack ∧
      (completeWait x es s).depth = s.depth ∧ (completeWait x es s).fb = s.fb := by
  rw [completeWait_frame]
  exact ⟨rfl, rfl, rfl, rfl, rfl, rfl, rfl⟩

theorem readV_completeWait_other (es : List KeyEvent) (s : State) {x y : Reg} (h : y ≠ x) :
    readV (completeWait x es s) y = readV s y := by
  cases hk : firstKeyDown es with
  | none => rw [completeWait_none hk]
  | some k => rw [completeWait_some hk, readV_setStatus, advance_def, readV_setPc, readV_writeV_other _ _ h]

/-! ### SKP and SKNP by the register (R213, R214) -/

section

variable {x : Reg} {s : State}

theorem exec_skp_high (h : 15 < (readV s x).toNat) :
    exec (.skp x) s = .next (raiseFault .keyIndexOutOfRange (encode (.skp x)) s) := by
  rw [exec, execSkp, (keyIndex_none s x).mpr h]

theorem exec_sknp_high (h : 15 < (readV s x).toNat) :
    exec (.sknp x) s = .next (raiseFault .keyIndexOutOfRange (encode (.sknp x)) s) := by
  rw [exec, execSknp, (keyIndex_none s x).mpr h]

theorem exec_skp_key {k : Key} (h : (readV s x).toNat = k.val) :
    exec (.skp x) s = .next (skip (keyPressed s k) s) := by
  rw [exec, execSkp, (keyIndex_some s x k).mpr h]

theorem exec_sknp_key {k : Key} (h : (readV s x).toNat = k.val) :
    exec (.sknp x) s = .next (skip (!keyPressed s k) s) := by
  rw [exec, execSknp, (keyIndex_some s x k).mpr h]

end

theorem pcMoves_skip (c : Bool) (s : State) : PcMoves s (skip c s) (if c then 4 else 2) := skip_pc c s

theorem pcMoves_skip_not (c : Bool) (s : State) : PcMoves s (skip (!c) s) (if c then 2 else 4) := by
  rw [PcMoves, skip_pc]
  cases c <;> rfl

end Sys2Proof.Machine

namespace Sys2Proof

open Sys2Proof.Machine

theorem fetched_eq_some_iff {s : State} {i : Instr} : fetched s = some i ↔ decode (fetch s) = .ok i := by
  unfold fetched
  cases decode (fetch s) <;> simp

/-- `u` is what step 6 of a tick of `s` with the record `inp` finds: `s` after the key events and the timer step, with
the record's draw and without the interaction that was taken. -/
structure FetchState (s : State) (inp : TickInput) (u : State) : Prop where
  rest : u = { s with dt := u.dt, st := u.st, key := u.key, hostEvents := u.hostEvents, hostCount := u.hostCount,
                      draw := u.draw }
  dt : u.dt.toNat = if inp.timerTick then s.dt.toNat - 1 else s.dt.toNat
  st : u.st.toNat = if inp.timerTick then s.st.toNat - 1 else s.st.toNat
  key : ∀ k : Key, u.key[k] = latchAfter inp.keyEvents s.key[k] k

namespace FetchState

variable {s u : State} {inp : TickInput}

theorem pc_eq (h : FetchState s inp u) : u.pc = s.pc := by rw [h.rest]

theorem mem_eq (h : FetchState s inp u) : u.mem = s.mem := by rw [h.rest]

theorem readV_eq (h : FetchState s inp u) (y : Reg) : readV u y = readV s y := by rw [h.rest]; rfl

/-- Neither the record nor the timer step moves the word that is fetched. -/
theorem fetch_eq (h : FetchState s inp u) : fetch u = fetch s := by rw [h.rest]; rfl

/-- What an instruction adds to pc, its whole tick adds. -/
theorem pcMoves_present (h : FetchState s inp u) {t : State} {n : Nat} (hpc : PcMoves u t n) : PcMoves s (present t) n := by
  rwa [PcMoves, present_pc, ← h.pc_eq]

end FetchState

namespace NextTick

variable {s s' : State} {inp : TickInput}

/-- A tick is the gate's, on the state with the record put in. -/
theorem step_eq (h : NextTick s s' inp) : step s = gatedTick exec inp (acceptInput inp s') :=
  (step_of_takeEvent h.event).trans (hostStep_tick h.goesOn s')

/-- The gate finds `s` with the key events, the draw and the queue without its head. -/
theorem acceptInput_eq (h : NextTick s s' inp) :
    acceptInput inp s' = { s with key := (applyKeyEvents inp.keyEvents s).key, draw := inp.draw,
                                  hostEvents := s'.hostEvents, hostCount := s'.hostCount } :=
  congrArg (acceptInput inp) (frame_of_takeEvent h.event)

theorem acceptInput_status (h : NextTick s s' inp) : (acceptInput inp s').status = s.status := by rw [h.acceptInput_eq]

theorem fetchState (h : NextTick s s' inp) : FetchState s inp (timerStep inp.timerTick (acceptInput inp s')) := by
  rw [h.acceptInput_eq]
  refine ⟨?_, timerStep_dt _ _, timerStep_st _ _, fun k => ?_⟩
  · rw [timerStep_frame]
  · rw [timerStep_frame]
    exact applyKeyEvents_latch inp.keyEvents s k

/-- A Running tick that is not paused runs the word at pc, if it names an instruction, and presents (R234). -/
theorem step_running (h : NextTick s s' inp) (hp : inp.paused = false) (hs : s.status = .running) {i : Instr}
    (hi : decode (fetch s) = .ok i) : ∃ u, FetchState s inp u ∧ step s = presentAfter (exec i u) := by
  refine ⟨_, h.fetchState, ?_⟩
  rw [h.step_eq, gatedTick_running hp (h.acceptInput_status.trans hs), executeFetched_ok (h.fetchState.fetch_eq ▸ hi)]

/-- A tick of a pending wait that is not paused completes the wait if it can, and presents (R234 step 4). -/
theorem step_awaitingKey (h : NextTick s s' inp) (hp : inp.paused = false) {x : Reg} (hs : s.status = .awaitingKey x) :
    step s = .next (present (completeWait x inp.keyEvents (acceptInput inp s'))) := by
  rw [h.step_eq, gatedTick_awaitingKey hp (h.acceptInput_status.trans hs)]

end NextTick

end Sys2Proof
end

section
/-! PROOFS. The statements of the family 44_timers_keys. -/

namespace Sys2Proof.Proofs

open Sys2Proof.Machine

/-- Settles O38: the instruction copies the DT it finds, which is DT after the timer step. -/
theorem delayTimerReadAfterTimerStep : Obligations.DelayTimerReadAfterTimerStep := by
  intro s s' inp x h hp hs hd
  obtain ⟨u, hu, hstep⟩ := h.step_running hp hs hd
  obtain ⟨t, ht, hx, ⟨hrest, hothers, hmem, hpc⟩⟩ := writeAdvance_onlyRegister u x u.dt
  have hdt : t.dt = u.dt := by rw [hrest]
  have hexec : exec (.ldVxDT x) u = .next t := ht
  rw [hexec] at hstep
  refine ⟨_, hstep, ?_, ?_, fun y hy => ?_, fun a => ?_, hu.pcMoves_present hpc⟩
  · rw [readV_present, hx, hu.dt]
  · rw [present_dt, hdt, hu.dt]
  · rw [readV_present, hothers y hy, hu.readV_eq]
  · rw [memRead_of_mem_eq (present_mem t), hmem, memRead_of_mem_eq hu.mem_eq]

/-- Settles O39, by whether the register names a key. In a tick the latch that the instruction finds is the one after the
key events. -/
theorem keySkips : Obligations.KeySkips := by
  intro x s
  have hskp : encode (.skp x) = BitVec.ofNat 16 (0xE09E + x.val * 256) :=
    decodesTo_iff_encode.mp (decodesTo_of_encode_wordXK_selector 0xE x 0x9E rfl)
  have hsknp : encode (.sknp x) = BitVec.ofNat 16 (0xE0A1 + x.val * 256) :=
    decodesTo_iff_encode.mp (decodesTo_of_encode_wordXK_selector 0xE x 0xA1 rfl)
  refine ⟨decodesTo_iff_encode.mpr hskp, decodesTo_iff_encode.mpr hsknp, fun hhigh => ⟨?_, ?_⟩, fun k hk => ⟨?_, ?_⟩,
    fun s' inp k h hp hs hk => ⟨fun hf => ?_, fun hf => ?_⟩⟩
  · rw [exec_skp_high hhigh, hskp]
    rfl
  · rw [exec_sknp_high hhigh, hsknp]
    rfl
  · exact ⟨_, exec_skp_key hk, pcMoves_skip _ s, onlyPc_skip _ s⟩
  · exact ⟨_, exec_sknp_key hk, pcMoves_skip_not _ s, onlyPc_skip _ s⟩
  · obtain ⟨u, hu, hstep⟩ := h.step_running hp hs (fetched_eq_some_iff.mp hf)
    rw [exec_skp_key (hu.readV_eq x ▸ hk)] at hstep
    exact ⟨_, hstep, hu.key k ▸ hu.pcMoves_present (pcMoves_skip _ u)⟩
  · obtain ⟨u, hu, hstep⟩ := h.step_running hp hs (fetched_eq_some_iff.mp hf)
    rw [exec_sknp_key (hu.readV_eq x ▸ hk)] at hstep
    exact ⟨_, hstep, hu.key k ▸ hu.pcMoves_present (pcMoves_skip_not _ u)⟩

/-- Settles O40, by the tick's first key-down event. -/
theorem waitForKey : Obligations.WaitForKey := by
  refine ⟨fun x s => ⟨decodesTo_of_encode_wordXK_selector 0xF x 0x0A rfl, rfl⟩, fun s s' inp x h hp hs => ?_⟩
  have hstep := h.step_awaitingKey hp hs
  rw [h.acceptInput_eq] at hstep
  obtain ⟨hdt, hst, hi, hmem, hstack, hdepth, hfb⟩ := completeWait_keeps x inp.keyEvents _
  refine ⟨_, hstep, (present_dt _).trans hdt, (present_st _).trans hst, (present_i _).trans hi, (present_mem _).trans hmem,
    (present_stack _).trans hstack, (present_depth _).trans hdepth, (present_fb _).trans hfb, fun y hy => ?_,
    fun hup => ?_, fun before after k hes hup => ?_⟩
  · rw [readV_present, readV_completeWait_other _ _ hy]
    rfl
  · rw [completeWait_none (firstKeyDown_of_all_up hup)]
    exact ⟨(present_status _).trans hs, present_pc _, readV_present _ x⟩
  · have hfirst : firstKeyDown inp.keyEvents = some k := hes ▸ firstKeyDown_append hup k after
    rw [completeWait_some hfirst]
    refine ⟨present_status _, ?_, ?_⟩
    · rw [PcMoves, present_pc, setStatus_pc, advance_pc, writeV_pc]
    · rw [readV_present, readV_setStatus, advance_def, readV_setPc, readV_writeV_same, BitVec.toNat_ofNat]
      omega

/-- Settles O37: the read is a write of one register, and the two stores write one timer. -/
theorem timerMoves : Obligations.TimerMoves := fun x s =>
  ⟨decodesTo_of_encode_wordXK_selector 0xF x 0x07 rfl, decodesTo_of_encode_wordXK_selector 0xF x 0x15 rfl,
    decodesTo_of_encode_wordXK_selector 0xF x 0x18 rfl, writeAdvance_onlyRegister s x s.dt,
    ⟨_, rfl, rfl, rfl, fun _ => rfl, fun _ => rfl, advance_pc _⟩,
    ⟨_, rfl, rfl, bne_iff_ne, rfl, fun _ => rfl, fun _ => rfl, advance_pc _⟩⟩

end Sys2Proof.Proofs
end

section
/-! SUPPORT. Faults by their conditions, what the word a tick fetches can do, and what every tick leaves to its presentation
step (60_exceptions.md R230 to R240). -/

namespace Sys2Proof.Machine

/-! ### Faults by their conditions (R230, R231) -/

/-- An instruction whose condition of R230 holds enters its fault and does nothing else. -/
theorem exec_of_faultOf_eq_some {i : Instr} {s : State} {c : FaultCause} (h : faultOf i s = some c) :
    exec i s = .next (raiseFault c (encode i) s) := by
  cases i
  case ret =>
    obtain ⟨hd, ⟨⟩⟩ := Option.ite_none_right_eq_some.mp h
    exact exec_ret_empty hd
  case call nnn =>
    obtain ⟨hd, ⟨⟩⟩ := Option.ite_none_right_eq_some.mp h
    exact exec_call_full nnn hd
  case skp x =>
    obtain ⟨hv, ⟨⟩⟩ := Option.ite_none_right_eq_some.mp h
    exact exec_skp_high hv
  case sknp x =>
    obtain ⟨hv, ⟨⟩⟩ := Option.ite_none_right_eq_some.mp h
    exact exec_sknp_high hv
  all_goals cases h

@[simp] theorem skip_status (c : Bool) (s : State) : (skip c s).status = s.status := by rw [skip_frame]

@[simp] theorem drawRand_status (s : State) : (drawRand s).2.status = s.status := by rw [drawRand_frame]

@[simp] theorem memWriteList_status (s : State) (a : Word) (bs : List Byte) :
    (memWriteList s a bs).status = s.status := by rw [memWriteList_frame]

@[simp] theorem loadBlock_status (s : State) (a : Word) (k n : Nat) : (loadBlock s a k n).status = s.status := by
  rw [loadBlock_frame]

/-- An instruction whose condition of R230 does not hold raises no fault: only LD Vx, K moves the status, to its wait. -/
theorem exec_status_of_faultOf_eq_none {i : Instr} {s t : State} (hf : faultOf i s = none) (h : exec i s = .next t) :
    t.status = s.status ∨ ∃ x, i = .ldVxK x ∧ t.status = .awaitingKey x := by
  cases i
  case ret =>
    rcases exec_ret_cases s with ⟨hd, -⟩ | ⟨k, -, he⟩
    · simp [faultOf, hd] at hf
    · cases he.symm.trans h
      exact .inl rfl
  case call nnn =>
    rcases exec_call_cases nnn s with ⟨hd, -⟩ | ⟨hd, he⟩
    · simp [faultOf, hd] at hf
    · cases he.symm.trans h
      exact .inl rfl
  case skp x =>
    rcases exec_skp_cases x s with ⟨hv, -⟩ | ⟨k, -, he⟩
    · simp [faultOf, hv] at hf
    · cases he.symm.trans h
      exact .inl (skip_status _ s)
  case sknp x =>
    rcases exec_sknp_cases x s with ⟨hv, -⟩ | ⟨k, -, he⟩
    · simp [faultOf, hv] at hf
    · cases he.symm.trans h
      exact .inl (skip_status _ s)
  case ldVxK x =>
    cases h
    exact .inr ⟨x, rfl, rfl⟩
  case seByte | sneByte | seReg | sneReg => cases h; exact .inl (skip_status _ s)
  case rnd => cases h; exact .inl (drawRand_status s)
  case ldB | ldStore => cases h; exact .inl (memWriteList_status ..)
  case ldLoad => cases h; exact .inl (loadBlock_status ..)
  all_goals cases h; exact .inl rfl

/-! ### The word that step 6 fetches -/

/-- The word that the next step fetches is a CLS or a DRW. -/
def FetchesDraw (s : State) : Prop := fetched s = some .cls ∨ ∃ x y n, fetched s = some (.drw x y n)

/-- What step 6 does: the instruction that is fetched, or the entry of UnknownInstruction. -/
inductive FetchedAnswer (s t : State) : Prop
  | known (i : Instr) (hi : fetched s = some i) (h : exec i s = .next t)
  | unknown (hn : fetched s = none) (h : t = raiseFault .unknownInstruction (fetch s) s)

theorem fetched_eq_none_of_error {s : State} {e : DecodeError} (h : decode (fetch s) = .error e) : fetched s = none := by
  rw [fetched, h]

theorem executeFetched_answer (s : State) : ∃ t, executeFetched exec s = .next t ∧ FetchedAnswer s t := by
  rcases executeFetched_cases s with ⟨i, hi, he⟩ | ⟨⟨e, hd⟩, he⟩
  · obtain ⟨t, ht⟩ := exec_next i s
    exact ⟨t, he.trans ht, .known i (fetched_eq_some_iff.mpr hi) ht⟩
  · exact ⟨_, he, .unknown (fetched_eq_none_of_error hd) rfl⟩

namespace FetchedAnswer

variable {s t : State}

theorem dt_eq (h : FetchedAnswer s t) (hq : ∀ x, fetched s ≠ some (.ldDT x)) : t.dt = s.dt := by
  cases h with
  | known i hi he => exact (effect_of_exec he).dt_cases.resolve_right fun ⟨x, hx⟩ => hq x (hx ▸ hi)
  | unknown _ h => rw [h]; rfl

theorem st_eq (h : FetchedAnswer s t) (hq : ∀ x, fetched s ≠ some (.ldST x)) : t.st = s.st := by
  cases h with
  | known i hi he => exact (effect_of_exec he).st_cases.resolve_right fun ⟨x, hx⟩ => hq x (hx ▸ hi)
  | unknown _ h => rw [h]; rfl

theorem key_eq (h : FetchedAnswer s t) : t.key = s.key := by
  cases h with
  | known i _ he => exact (effect_of_exec he).host_fields.1
  | unknown _ h => rw [h]; rfl

theorem presented_eq (h : FetchedAnswer s t) : t.presented = s.presented := by
  cases h with
  | known i _ he => exact (effect_of_exec he).host_fields.2.1
  | unknown _ h => rw [h]; rfl

/-- A CLS or a DRW sets dirty, and nothing else touches the display (R37, R176). -/
theorem display (h : FetchedAnswer s t) :
    (t.dirty = true ↔ s.dirty = true ∨ FetchesDraw s) ∧ (¬FetchesDraw s → t.fb = s.fb) := by
  cases h with
  | known i hi he =>
    have hdraw : FetchesDraw s ↔ i = .cls ∨ ∃ x y n, i = .drw x y n := by simp [FetchesDraw, hi]
    obtain ⟨t', ht', hdirty, hfb⟩ := Proofs.onlyClsAndDrwTouchTheScreen i s
    cases ht'.symm.trans he
    rw [hdraw]
    exact ⟨hdirty, not_imp_comm.mp hfb⟩
  | unknown hn h =>
    have hdraw : ¬FetchesDraw s := by simp [FetchesDraw, hn]
    rw [h, iff_false_intro hdraw, or_false]
    exact ⟨Iff.rfl, fun _ => rfl⟩

end FetchedAnswer

/-! ### Presentation (R240) -/

theorem present_presented (s : State) :
    (present s).presented = if s.dirty then s.presented ++ [s.fb] else s.presented := by
  cases h : s.dirty with
  | true => rw [present_dirty h]; rfl
  | false => rw [present_clean h]; rfl

end Sys2Proof.Machine

namespace Sys2Proof

open Sys2Proof.Machine

/-! ### What step 6 finds in its tick -/

namespace FetchState

variable {s u : State} {inp : TickInput}

theorem v_eq (h : FetchState s inp u) : u.v = s.v := by rw [h.rest]

theorem i_eq (h : FetchState s inp u) : u.i = s.i := by rw [h.rest]

theorem stack_eq (h : FetchState s inp u) : u.stack = s.stack := by rw [h.rest]

theorem depth_eq (h : FetchState s inp u) : u.depth = s.depth := by rw [h.rest]

theorem fb_eq (h : FetchState s inp u) : u.fb = s.fb := by rw [h.rest]

theorem dirty_eq (h : FetchState s inp u) : u.dirty = s.dirty := by rw [h.rest]

theorem presented_eq (h : FetchState s inp u) : u.presented = s.presented := by rw [h.rest]

theorem fetched_eq (h : FetchState s inp u) : fetched u = fetched s := by rw [fetched, fetched, h.fetch_eq]

theorem fetchesDraw_iff (h : FetchState s inp u) : FetchesDraw u ↔ FetchesDraw s := by
  rw [FetchesDraw, FetchesDraw, h.fetched_eq]

/-- The conditions of R230 are of the depth and the registers, which a tick leaves to its instruction. -/
theorem faultOf_eq (h : FetchState s inp u) (i : Instr) : faultOf i u = faultOf i s := by rw [h.rest]; rfl

end FetchState

/-! ### What every tick leaves to its presentation step -/

/-- The tick reaches step 6 and draws or clears there. -/
def TickDraws (s : State) (inp : TickInput) : Prop := inp.paused = false ∧ s.status = .running ∧ FetchesDraw s

/-- `u` is what a tick of `s` with the record `inp` leaves to step 7: the key events are applied, nothing is presented yet,
and the screen is touched only if the tick draws or clears. -/
structure TickWork (s : State) (inp : TickInput) (u : State) : Prop where
  key : ∀ k : Key, u.key[k] = latchAfter inp.keyEvents s.key[k] k
  presented : u.presented = s.presented
  dirty : u.dirty = true ↔ s.dirty = true ∨ TickDraws s inp
  fb : ¬TickDraws s inp → u.fb = s.fb

namespace NextTick

variable {s s' : State} {inp : TickInput}

/-- A tick that is paused, or of an Idle or Halted block, presents what the record left (R234, R236, R245). -/
theorem step_rest (h : NextTick s s' inp) (hr : inp.paused = true ∨ s.status = .idle ∨ ∃ c w, s.status = .halted c w) :
    step s = .next (present (acceptInput inp s')) := by
  rw [h.step_eq, gatedTick_rest (h.acceptInput_status ▸ hr)]

/-- A Running tick that is not paused answers what its fetched word does, presented; the word may name no instruction. -/
theorem step_fetched (h : NextTick s s' inp) (hp : inp.paused = false) (hs : s.status = .running) :
    ∃ u t, FetchState s inp u ∧ FetchedAnswer u t ∧ step s = .next (present t) := by
  obtain ⟨t, ht, hanswer⟩ := executeFetched_answer (timerStep inp.timerTick (acceptInput inp s'))
  refine ⟨_, t, h.fetchState, hanswer, ?_⟩
  rw [h.step_eq, gatedTick_running hp (h.acceptInput_status.trans hs), ht]
  rfl

theorem acceptInput_latch (h : NextTick s s' inp) (k : Key) :
    (acceptInput inp s').key[k] = latchAfter inp.keyEvents s.key[k] k := by
  rw [h.acceptInput_eq]
  exact applyKeyEvents_latch inp.keyEvents s k

/-- The state with the record put in is all the work of a tick that runs no instruction. -/
theorem acceptInput_work (h : NextTick s s' inp) (hn : ¬TickDraws s inp) : TickWork s inp (acceptInput inp s') := by
  refine ⟨h.acceptInput_latch, ?_, ?_, fun _ => ?_⟩ <;> rw [h.acceptInput_eq]
  rw [iff_false_intro hn, or_false]

/-- A tick that does not quit answers its work, presented. -/
theorem step_work (h : NextTick s s' inp) : ∃ u, step s = .next (present u) ∧ TickWork s inp u := by
  cases tickGate inp s with
  | rest hr =>
    have hn : ¬TickDraws s inp := by
      rintro ⟨hp, hs, -⟩
      simp [hp, hs] at hr
    exact ⟨_, h.step_rest hr, h.acceptInput_work hn⟩
  | awaitingKey hp x hs =>
    have hn : ¬TickDraws s inp := by
      rintro ⟨-, hrun, -⟩
      simp [hs] at hrun
    obtain ⟨hkey, hpresented, hdirty, hfb⟩ := h.acceptInput_work hn
    refine ⟨_, h.step_awaitingKey hp hs, ?_⟩
    rw [completeWait_frame]
    exact ⟨hkey, hpresented, hdirty, hfb⟩
  | running hp hs =>
    obtain ⟨u, t, hu, ht, hstep⟩ := h.step_fetched hp hs
    have hdraws : TickDraws s inp ↔ FetchesDraw u := by simp [TickDraws, hp, hs, hu.fetchesDraw_iff]
    obtain ⟨hdirty, hfb⟩ := ht.display
    refine ⟨t, hstep, fun k => ?_, ht.presented_eq.trans hu.presented_eq, ?_, fun hn => ?_⟩
    · rw [ht.key_eq, hu.key]
    · rw [hdirty, hu.dirty_eq, hdraws]
    · rw [hfb (hn ∘ hdraws.mpr), hu.fb_eq]

end NextTick

end Sys2Proof
end

section
/-! PROOFS. The statements of the family 60_exceptions. -/

namespace Sys2Proof.Proofs

open Sys2Proof.Machine

/-- Settles O43: the four conditions give their faults, and without one only LD Vx, K moves the status; in a tick the
instruction finds the block as it was but for the key events and the timer step. -/
theorem faultsArePreciseAndNoOthers : Obligations.FaultsArePreciseAndNoOthers := by
  refine ⟨fun i s => ⟨fun c => exec_of_faultOf_eq_some, fun hf => ?_⟩, fun s e => executeFetched_error,
    fun s s' inp i c h hp hs hi hf => ?_, rfl, rfl, rfl, rfl⟩
  · obtain ⟨t, ht⟩ := exec_next i s
    exact ⟨t, ht, exec_status_of_faultOf_eq_none hf ht⟩
  · have hd := fetched_eq_some_iff.mp hi
    obtain ⟨u, hu, hstep⟩ := h.step_running hp hs hd
    rw [exec_of_faultOf_eq_some (hu.faultOf_eq i ▸ hf), encode_of_decode hd] at hstep
    exact ⟨_, hstep, present_status _, (present_pc _).trans hu.pc_eq, (present_v _).trans hu.v_eq,
      (present_i _).trans hu.i_eq, (present_mem _).trans hu.mem_eq, (present_stack _).trans hu.stack_eq,
      (present_depth _).trans hu.depth_eq, (present_fb _).trans hu.fb_eq, (congrArg BitVec.toNat (present_dt _)).trans hu.dt,
      (congrArg BitVec.toNat (present_st _)).trans hu.st⟩

/-- Settles O44: a tick of a Halted block only takes the record and presents, a load is refused, and a reset is Idle. -/
theorem haltedUntilReset : Obligations.HaltedUntilReset := by
  intro s s' c w hs
  refine ⟨fun inp h => ?_, fun bytes h => ?_, fun h => ⟨_, step_of_takeEvent h, rfl⟩⟩
  · have hstep := h.step_rest (.inr (.inr ⟨c, w, hs⟩))
    have hlatch := h.acceptInput_latch
    rw [h.acceptInput_eq] at hstep hlatch
    exact ⟨_, hstep, (present_status _).trans hs, present_dt _, present_st _, present_pc _, present_v _, present_i _,
      present_mem _, present_stack _, present_depth _, present_fb _, fun k => by rw [present_key]; exact hlatch k⟩
  · have hs' : s'.status = .halted c w := by rw [frame_of_takeEvent h, hs]
    refine ⟨_, step_of_takeEvent h, ?_⟩
    rw [loadProgram_notIdle (by simp [hs']), setLoadResult_status, hs']

/-- Settles O47: the work of a tick leaves the latch that the events say, and presentation keeps it. -/
theorem keyEventsApplyInOrder : Obligations.KeyEventsApplyInOrder := by
  intro s s' inp h
  obtain ⟨u, hstep, hu⟩ := h.step_work
  exact ⟨_, hstep, fun k => present_key u ▸ hu.key k⟩

/-- Settles O48: such a tick presents what the record left, which is the block but for the latch and
the model's own fields. -/
theorem pausedOrIdleTickOnlyTakesKeys : Obligations.PausedOrIdleTickOnlyTakesKeys := by
  intro s s' inp h hr
  refine ⟨_, h.step_rest (hr.imp_right .inl), ?_, fun k => ?_, ?_⟩
  · rw [present_frame, acceptInput_frame]
  · rw [present_key, h.acceptInput_latch]
  · rw [present_presented, h.acceptInput_eq]

/-- Settles O49: the fetched word leaves a timer it does not write as the timer step put it. -/
theorem timersStepTogether : Obligations.TimersStepTogether := by
  intro s s' inp h hp hs
  obtain ⟨u, t, hu, ht, hstep⟩ := h.step_fetched hp hs
  refine ⟨_, hstep, fun hq => ?_, fun hq => ?_⟩
  · rw [present_dt, ht.dt_eq (hu.fetched_eq ▸ hq), hu.dt]
  · rw [present_st, ht.st_eq (hu.fetched_eq ▸ hq), hu.st]

/-- A timer that goes down by 1 in each tick of a run goes down by the run's length, to 0 at the least. -/
theorem timerRun_cadence {writes : Instr → Bool} {timer : State → Byte}
    (hdec : ∀ t u, TimerTick t u → (∀ i, fetched t = some i → writes i = false) →
      (timer u).toNat = (timer t).toNat - 1)
    {n : Nat} {s t : State} (run : TimerRun writes n s t) : (timer t).toNat = (timer s).toNat - n := by
  induction run with
  | zero => rfl
  | succ _ tick quiet ih => rw [hdec _ _ tick quiet, ih, Nat.sub_sub]

/-- Both timers in a timer tick, by `timersStepTogether`. -/
theorem timerTick_steps {t u : State} (h : TimerTick t u) :
    ((∀ x, fetched t ≠ some (.ldDT x)) → u.dt.toNat = t.dt.toNat - 1) ∧
      ((∀ x, fetched t ≠ some (.ldST x)) → u.st.toNat = t.st.toNat - 1) := by
  obtain ⟨s', inp, hnext, hp, htick⟩ := h.tick
  obtain ⟨u', hstep, htimers⟩ := timersStepTogether t s' inp hnext hp h.running
  cases hstep.symm.trans h.answer
  simpa only [htick, if_true] using htimers

/-- Settles O50, by induction over the run. -/
theorem timerCadence : Obligations.TimerCadence := by
  refine ⟨fun n s t => timerRun_cadence (timer := State.dt) fun t u h hq => ?_,
    fun n s t => timerRun_cadence (timer := State.st) fun t u h hq => ?_⟩
  · exact (timerTick_steps h).1 fun x hx => absurd (hq _ hx) (by simp)
  · exact (timerTick_steps h).2 fun x hx => absurd (hq _ hx) (by simp)

/-- Settles O51, by whether the work of the tick leaves the screen dirty. -/
theorem presentIfDirty : Obligations.PresentIfDirty := by
  intro s s' inp h
  obtain ⟨u, hstep, hu⟩ := h.step_work
  have hpresented : u.dirty = true → (present u).presented = s.presented ++ [(present u).fb] := fun hd => by
    rw [present_presented, if_pos hd, hu.presented, present_fb]
  refine ⟨_, hstep, present_dirty_false u, ?_, fun hp hs hf => hpresented (hu.dirty.mpr (.inr ⟨hp, hs, hf⟩))⟩
  by_cases hd : s.dirty = true ∨ TickDraws s inp
  · exact .inl ⟨hpresented (hu.dirty.mpr hd), hd.imp_right fun ⟨_, _, hf⟩ => hf⟩
  · have hclean : u.dirty = false := Bool.eq_false_iff.mpr (hd ∘ hu.dirty.mp)
    obtain ⟨hsd, hn⟩ := not_or.mp hd
    rw [present_clean hclean]
    exact .inr ⟨hu.presented, Bool.eq_false_iff.mpr hsd, hu.fb hn⟩

/-- Settles O52, by the three answers of a load; the bytes end at 0xFFF at the latest, so none of them wraps. -/
theorem loadProgramOrRefuse : Obligations.LoadProgramOrRefuse := by
  intro s s' bytes h
  have hframe := frame_of_takeEvent h
  have hstatus : s'.status = s.status := by rw [hframe]
  have hmem : s'.mem = s.mem := by rw [hframe]
  have hstep : step s = .next (loadProgram bytes s') := step_of_takeEvent h
  refine ⟨fun hs => ?_, fun hs hl => ?_, fun hs hl => ?_⟩
  · rw [hstep, loadProgram_notIdle (hstatus ▸ hs)]
    rfl
  · rw [hstep, loadProgram_tooLarge (hstatus ▸ hs) hl]
    rfl
  · have hindex : ∀ k < bytes.length, memIndex (Config.programBase + BitVec.ofNat 16 k) = 0x200 + k := fun k hk => by
      rw [memIndex_add, show Config.programBase.toNat = 0x200 from rfl]
      omega
    rw [loadProgram_ok (hstatus ▸ hs) hl] at hstep
    refine ⟨_, hstep, rfl, rfl, rfl, ?_, fun k hk a ha => ?_, fun a ha => ?_⟩
    · rw [memWriteList_frame]
      rfl
    · exact memRead_memWriteList s' _ a bytes k hk (by omega) (ha.trans (hindex k hk).symm)
    · refine (memRead_memWriteList_other s' _ a bytes fun k hk => ?_).trans (memRead_of_mem_eq hmem a)
      rw [hindex k hk]
      omega

/-- Settles O45: the gate, the fetch and the decode of a Running tick that is not paused. -/
theorem stepRunsTheDecodedInstruction : Obligations.StepRunsTheDecodedInstruction := by
  intro s s' inp i h hp hs hd _
  rw [h.step_eq, gatedTick_running hp (h.acceptInput_status.trans hs),
    executeFetched_ok (h.fetchState.fetch_eq ▸ hd)]

/-- Settles O46, by the interaction the step takes. -/
theorem onlyQuitStops : Obligations.OnlyQuitStops := by
  intro s
  refine ⟨fun inp s' h hq => ?_, fun hq => ?_⟩
  · rw [step_of_takeEvent h]
    simp [hostStep, tick, hq]
  · cases he : takeEvent s with
    | mk e s' =>
      cases e with
      | reset => exact ⟨_, step_of_takeEvent he⟩
      | load bytes => exact ⟨_, step_of_takeEvent he⟩
      | tick inp =>
        obtain ⟨u, hstep, -⟩ := NextTick.step_work ⟨he, hq inp s' he⟩
        exact ⟨_, hstep⟩

end Sys2Proof.Proofs
end

section
/-! SUPPORT. What the state after a reset event holds, read by read (70_reset_and_hazards.md R270), and where FONT ends
(10_state.md R36). -/

namespace Sys2Proof.Machine

theorem fontBytes_length : fontBytes.length = 80 := rfl

/-- Beyond FONT's 80 bytes the reset content is 0. -/
theorem resetByte_beyond_font {a : Nat} (h : 80 ≤ a) : resetByte a = 0 := by
  have hlen : fontBytes.length ≤ a := fontBytes_length ▸ h
  simp [resetByte, List.getD_eq_getElem?_getD, List.getElem?_eq_none hlen]

/-- Reset memory lists no byte, so each address reads as its reset content. -/
@[simp] theorem memRead_resetBlock (s : State) (a : Word) : memRead (resetBlock s) a = resetByte (memIndex a) := rfl

@[simp] theorem readV_resetBlock (s : State) (x : Reg) : readV (resetBlock s) x = 0 :=
  Vector.getElem_replicate x.isLt

theorem resetBlock_stack_getElem (s : State) (k : Fin 16) : (resetBlock s).stack[k] = 0 :=
  Vector.getElem_replicate k.isLt

theorem resetBlock_key_getElem (s : State) (k : Key) : (resetBlock s).key[k] = false :=
  Vector.getElem_replicate k.isLt

@[simp] theorem resetBlock_fb (s : State) : (resetBlock s).fb = Framebuffer.clear := rfl

end Sys2Proof.Machine
end

section
/-! PROOFS. The statements of the family 70_reset_and_hazards. -/

namespace Sys2Proof.Proofs

open Sys2Proof.Machine

/-- Settles O53: the step is the reset of the block. Its scalars are 0 by definition; what is indexed goes by the read of
each kind of store, and memory beyond FONT by FONT's length. -/
theorem resetEventResets : Obligations.ResetEventResets := by
  intro s s' h
  have hregs : ∀ x, (readV (resetBlock s') x).toNat = 0 := fun x => by simp
  have hslots : ∀ k : Fin 16, ((resetBlock s').stack[k]).toNat = 0 := fun k =>
    congrArg BitVec.toNat (resetBlock_stack_getElem s' k)
  have hfont : ∀ a, memIndex a < 80 → memRead (resetBlock s') a = fontBytes.getD (memIndex a) 0 :=
    fun a _ => memRead_resetBlock s' a
  have hbeyond : ∀ a, 80 ≤ memIndex a → (memRead (resetBlock s') a).toNat = 0 := fun a ha => by
    simp [resetByte_beyond_font ha]
  have hcells : ∀ col row, (resetBlock s').fb.cell col row = false := fun col row => by simp
  exact ⟨resetBlock s', step_of_takeEvent h, hregs, rfl, rfl, hslots, rfl, rfl, rfl, hfont, hbeyond, hcells, rfl,
    resetBlock_key_getElem s', rfl⟩

end Sys2Proof.Proofs
end
